-- ==== Sys2Proof/Word.lean ====
section
/-! DEFINITION. The widths of the block: bytes, u16 values and the 12-bit dispatch word (R13, R51). -/

namespace Sys2Proof

/-- An unsigned 8-bit value (R13). -/
abbrev Byte := BitVec 8

/-- An unsigned 16-bit value (R13): the opcode, the length field and the CRC. -/
abbrev U16 := BitVec 16

/-- The word that selects an operation in the opcode table (R51): selector in bits 11:10; for FEED the state code in
bits 9:8 and the byte in bits 7:0. -/
abbrev DispatchWord := BitVec 12

end Sys2Proof
end

