-- ==== Sys2Proof/Config.lean ====
section
/-! DEFINITION. The parameters of the block (R10, R67), what makes a set of them legal (R11), and the sizes that are fixed
at 2 throughout (R12). The values THIS hardware takes are Machine/Hardware.lean's. Log 1: a parameter is a named
argument of every definition, so that a claim can be made for every legal set. -/

namespace Sys2Proof

/-- What a token byte does in ESCAPING (R10, R55, D6). -/
inductive EscPolicy where
  /-- A START_TOKEN restarts and an ESCAPE_TOKEN is a double escape (R85, R86). -/
  | tokenFirst
  /-- Every byte is un-escaped and appended (R55). -/
  | literal
  deriving DecidableEq, Repr

/-- The parameters the block is built with (R10; the CRC's five, R67). No operation writes them (R28). -/
structure Params where
  startToken : Byte
  escapeToken : Byte
  escapeMask : Byte
  /-- The decoder's bound on an accepted length field (R90). -/
  maxPayload : Nat
  escPolicy : EscPolicy
  crcPoly : U16
  crcInit : U16
  crcRefin : Bool
  crcRefout : Bool
  crcXorout : U16
  deriving DecidableEq, Repr

/-- `OPCODE_SIZE`, in bytes (R10, R12). -/
@[simp] abbrev Config.opcodeSize : Nat := 2

/-- `LENGTH_SIZE`, in bytes (R10, R12). -/
@[simp] abbrev Config.lengthSize : Nat := 2

/-- `CRC_SIZE`, in bytes (R10, R12). -/
@[simp] abbrev Config.crcSize : Nat := 2

/-- `HEADER_SIZE` = OPCODE_SIZE + LENGTH_SIZE = 4 (R10). -/
@[simp] abbrev Config.headerSize : Nat := 4

/-- `FRAME_OVERHEAD` = HEADER_SIZE + CRC_SIZE = 6 (R10). -/
@[simp] abbrev Config.frameOverhead : Nat := 6

/-- `MAX_LEN_FIELD` = 2^(8*LENGTH_SIZE) - 1 (R10). -/
@[simp] abbrev Config.maxLenField : Nat := 65535

/-- `BUF_CAP` = HEADER_SIZE + MAX_PAYLOAD + CRC_SIZE (R10). -/
abbrev Params.bufCap (P : Params) : Nat := Config.headerSize + P.maxPayload + Config.crcSize

/-- A byte equal to one of the two tokens (R16). -/
abbrev Params.IsToken (P : Params) (b : Byte) : Prop := b = P.startToken ∨ b = P.escapeToken

/-- The constraints a legal parameter set satisfies (R11). -/
structure Params.Legal (P : Params) : Prop where
  tokens_differ : P.startToken ≠ P.escapeToken
  mask_nonzero : P.escapeMask ≠ 0
  start_escaped : ¬ P.IsToken (P.startToken ^^^ P.escapeMask)
  escape_escaped : ¬ P.IsToken (P.escapeToken ^^^ P.escapeMask)
  bound : P.maxPayload ≤ Config.maxLenField

end Sys2Proof
end

