-- ==== Sys2Proof/Machine/Hardware.lean ====
section
/-! DEFINITION. The values this hardware takes for the parameters (R10, R67). -/

namespace Sys2Proof

/-- The parameter values of R10 and R67: HDLC's tokens and mask (D1 to D3), no bound below the length field's own (D7),
TOKEN_FIRST (D6) and CRC-16/CCITT-FALSE (D5). -/
def Params.hardware : Params where
  startToken := 0x7E
  escapeToken := 0x7D
  escapeMask := 0x20
  maxPayload := 65535
  escPolicy := .tokenFirst
  crcPoly := 0x1021
  crcInit := 0xFFFF
  crcRefin := false
  crcRefout := false
  crcXorout := 0x0000

end Sys2Proof
end

