-- ==== Sys2Proof/Syntax.lean ====
section
/-! DEFINITION. The operations of the block: one constructor per row of spec/opcode_table.json (R50). A byte or a state that
the row itself fixes is no operand. `inst` names the decoder instance the operation is for (R50 "one decoder", R66;
log 2). -/

namespace Sys2Proof

/-- The rows of the opcode table. -/
inductive Instr where
  /-- NEW (R78): create a decoder, named `inst`. -/
  | new (inst : Nat)
  /-- FEED.IDLE.START (R80): START_TOKEN in IDLE. -/
  | feedIdleStart (inst : Nat)
  /-- FEED.IDLE.OTHER (R81): any other byte in IDLE. -/
  | feedIdleOther (inst : Nat) (b : Byte)
  /-- FEED.COLL.START (R82): START_TOKEN in COLLECTING. -/
  | feedCollStart (inst : Nat)
  /-- FEED.COLL.ESCAPE (R83): ESCAPE_TOKEN in COLLECTING. -/
  | feedCollEscape (inst : Nat)
  /-- FEED.COLL.DATA (R84): any other byte in COLLECTING. -/
  | feedCollData (inst : Nat) (b : Byte)
  /-- FEED.ESC.START (R85): START_TOKEN in ESCAPING. -/
  | feedEscStart (inst : Nat)
  /-- FEED.ESC.ESCAPE (R86): ESCAPE_TOKEN in ESCAPING. -/
  | feedEscEscape (inst : Nat)
  /-- FEED.ESC.DATA (R87): any other byte in ESCAPING; under LITERAL any byte at all (R55). -/
  | feedEscData (inst : Nat) (b : Byte)
  /-- ENCODE (R74): serialize one frame. -/
  | encode (opcode : U16) (payload : List Byte)
  /-- CRC16 (R68), format internal: not dispatched, called by ENCODE and FEED. -/
  | crc16 (data : List Byte)
  /-- STUFF (R73), format internal: not dispatched, called by ENCODE. -/
  | stuff (bytes : List Byte)
  deriving DecidableEq, Repr

/-- The operands that are passed as arguments beside the dispatch word (R51): which decoder a NEW or FEED is for (R66),
and ENCODE's opcode and payload. -/
structure Args where
  inst : Nat
  opcode : U16
  payload : List Byte
  deriving DecidableEq, Repr

end Sys2Proof
end

