-- ==== Sys2Proof/Decode.lean ====
section
/-! DEFINITION. From a dispatch word and its arguments to an operation (R51 to R55), total and rejecting by name; the encoder
back; the opcode table itself as rows of match and mask, of which the one with the most mask bits wins (R51, R53). -/

namespace Sys2Proof

/-! ### Selectors and byte classes -/

/-- Selector of NEW (R51). -/
def Sel.new : BitVec 2 := 0
/-- Selector of FEED (R51). -/
def Sel.feed : BitVec 2 := 1
/-- Selector of ENCODE (R51). -/
def Sel.encode : BitVec 2 := 2
/-- The reserved selector (R51, ID2). -/
def Sel.reserved : BitVec 2 := 3

/-- State code of IDLE (R18). -/
def StCode.idle : BitVec 2 := 0
/-- State code of COLLECTING (R18). -/
def StCode.collecting : BitVec 2 := 1
/-- State code of ESCAPING (R18). -/
def StCode.escaping : BitVec 2 := 2
/-- The state code that is never written (R18, ID1). -/
def StCode.reserved : BitVec 2 := 3

/-- The three classes of an input byte (R52). -/
inductive ByteClass where
  | start
  | escape
  | data
  deriving DecidableEq, Repr

/-- The class of a byte, checked in R52's order. -/
def byteClass (P : Params) (b : Byte) : ByteClass :=
  if b = P.startToken then .start else if b = P.escapeToken then .escape else .data

/-! ### The decoder -/

/-- Why a dispatch word stands for no operation. -/
inductive DecodeError where
  /-- Bits 11:10 are 3 (R51): refused. -/
  | reservedSelector
  /-- A FEED word whose bits 9:8 are 3 (R54): a fault. -/
  | reservedState
  deriving DecidableEq, Repr

/-- The FEED row that the state code and the byte select (R52, R53, R55). -/
def decodeFeed (P : Params) (st : BitVec 2) (b : Byte) (inst : Nat) : Except DecodeError Instr :=
  if st = StCode.idle then
    match byteClass P b with
    | .start => .ok (.feedIdleStart inst)
    | .escape => .ok (.feedIdleOther inst b)
    | .data => .ok (.feedIdleOther inst b)
  else if st = StCode.collecting then
    match byteClass P b with
    | .start => .ok (.feedCollStart inst)
    | .escape => .ok (.feedCollEscape inst)
    | .data => .ok (.feedCollData inst b)
  else if st = StCode.escaping then
    match P.escPolicy, byteClass P b with
    | .tokenFirst, .start => .ok (.feedEscStart inst)
    | .tokenFirst, .escape => .ok (.feedEscEscape inst)
    | .tokenFirst, .data => .ok (.feedEscData inst b)
    | .literal, _ => .ok (.feedEscData inst b)
  else .error .reservedState

/-- The operation a dispatch word and its arguments select (R51). NEW and ENCODE ignore bits 9:0. -/
def decode (P : Params) (d : DispatchWord) (a : Args) : Except DecodeError Instr :=
  let sel := d.extractLsb' 10 2
  if sel = Sel.new then .ok (.new a.inst)
  else if sel = Sel.feed then decodeFeed P (d.extractLsb' 8 2) (d.extractLsb' 0 8) a.inst
  else if sel = Sel.encode then .ok (.encode a.opcode a.payload)
  else .error .reservedSelector

/-! ### The encoder -/

/-- The dispatch word of a FEED (R51, R53): selector, state code, byte. -/
def feedWord (st : BitVec 2) (b : Byte) : DispatchWord := Sel.feed ++ (st ++ b)

/-- The dispatch word of an operation whose bits 9:0 are ignored and written 0 (R51). -/
def selWord (sel : BitVec 2) : DispatchWord := sel ++ (0 : BitVec 10)

/-- The arguments of an operation that only names a decoder. -/
def Args.ofInst (inst : Nat) : Args := { inst := inst, opcode := 0, payload := [] }

/-- The dispatch word and arguments of an operation; none for the internal rows, which are not dispatched (R50). -/
def encode (P : Params) : Instr → Option (DispatchWord × Args)
  | .new inst => some (selWord Sel.new, Args.ofInst inst)
  | .feedIdleStart inst => some (feedWord StCode.idle P.startToken, Args.ofInst inst)
  | .feedIdleOther inst b => some (feedWord StCode.idle b, Args.ofInst inst)
  | .feedCollStart inst => some (feedWord StCode.collecting P.startToken, Args.ofInst inst)
  | .feedCollEscape inst => some (feedWord StCode.collecting P.escapeToken, Args.ofInst inst)
  | .feedCollData inst b => some (feedWord StCode.collecting b, Args.ofInst inst)
  | .feedEscStart inst => some (feedWord StCode.escaping P.startToken, Args.ofInst inst)
  | .feedEscEscape inst => some (feedWord StCode.escaping P.escapeToken, Args.ofInst inst)
  | .feedEscData inst b => some (feedWord StCode.escaping b, Args.ofInst inst)
  | .encode opcode payload => some (selWord Sel.encode, { inst := 0, opcode := opcode, payload := payload })
  | .crc16 _ => none
  | .stuff _ => none

/-! ### The opcode table as rows -/

/-- A row of the opcode table: its match and mask, and the operation it stands for, given the arguments and bits 7:0. -/
structure TableRow where
  pat : DispatchWord
  mask : DispatchWord
  instr : Args → Byte → Instr

/-- A word matches a row when they agree on the row's mask. -/
def TableRow.hits (r : TableRow) (d : DispatchWord) : Bool := d &&& r.mask == r.pat

/-- How many bits of a mask are set. -/
def maskBits (m : DispatchWord) : Nat := (List.range 12).countP (fun k => m.getLsbD k)

/-- The ten dispatched rows of spec/opcode_table.json, in its order (R51, R53); under LITERAL the two token rows of
ESCAPING do not exist (R55). -/
def tableRows (P : Params) : List TableRow :=
  [ ⟨0x000, 0xC00, fun a _ => .new a.inst⟩,
    ⟨0x400 ||| P.startToken.setWidth 12, 0xFFF, fun a _ => .feedIdleStart a.inst⟩,
    ⟨0x400, 0xF00, fun a b => .feedIdleOther a.inst b⟩,
    ⟨0x500 ||| P.startToken.setWidth 12, 0xFFF, fun a _ => .feedCollStart a.inst⟩,
    ⟨0x500 ||| P.escapeToken.setWidth 12, 0xFFF, fun a _ => .feedCollEscape a.inst⟩,
    ⟨0x500, 0xF00, fun a b => .feedCollData a.inst b⟩ ]
  ++ (match P.escPolicy with
      | .tokenFirst =>
        [ ⟨0x600 ||| P.startToken.setWidth 12, 0xFFF, fun a _ => .feedEscStart a.inst⟩,
          ⟨0x600 ||| P.escapeToken.setWidth 12, 0xFFF, fun a _ => .feedEscEscape a.inst⟩ ]
      | .literal => [])
  ++ [ ⟨0x600, 0xF00, fun a b => .feedEscData a.inst b⟩,
       ⟨0x800, 0xC00, fun a _ => .encode a.opcode a.payload⟩ ]

/-- The row with the most mask bits set among those a word matches; of equals, the earlier. -/
def bestRow (d : DispatchWord) : List TableRow → Option TableRow
  | [] => none
  | r :: rs =>
    if r.hits d then
      match bestRow d rs with
      | none => some r
      | some q => if maskBits r.mask < maskBits q.mask then some q else some r
    else bestRow d rs

/-- The operation the opcode table gives a word, by R51's and R53's 'most mask bits set wins'. -/
def tableDecode (P : Params) (d : DispatchWord) (a : Args) : Option Instr :=
  (bestRow d (tableRows P)).map (fun r => r.instr a (d.extractLsb' 0 8))

/-! ### The host's question -/

/-- The dispatch word in a word of the host's; one with a bit above the twelve stands for no operation, and is given the
reserved selector (log 10). -/
def tableWord (w : Nat) : DispatchWord := if w < 4096 then BitVec.ofNat 12 w else selWord Sel.reserved

/-- The operation the decoder reads from a word of the opcode table, under this hardware's parameters and with every
argument zero (log 10). The width the table gives the row is the dispatch word's own, so `nbits` says nothing more. -/
def decodeTableWord (_nbits w : Nat) : Option Instr :=
  match decode Params.hardware (tableWord w) (Args.ofInst 0) with
  | .ok i => some i
  | .error _ => none

end Sys2Proof
end

