-- ==== Sys2Proof/Machine/State.lean ====
section
/-! DEFINITION. The state of the block: its decoder instances and the parameters it is built with, and, as the model's own
fields, what the outside world asks for next and what the block has handed out. -/

namespace Sys2Proof.Machine

/-- The decoder state, a tagged enum (R17, R18). -/
inductive St where
  /-- Code 0: no START_TOKEN seen yet. -/
  | idle
  /-- Code 1: a START_TOKEN has been seen. -/
  | collecting
  /-- Code 2: the previous byte was an ESCAPE_TOKEN (so the source's `escaping` is `st = escaping`, R19). -/
  | escaping
  /-- Code 3: never written (R18); here so that a model that meets it can fault (R54, log 12). -/
  | reserved
  deriving DecidableEq, Repr

/-- A decoder instance: exactly three components (R17). -/
structure Decoder where
  st : St
  /-- The reassembly buffer, in arrival order (R20). -/
  buf : List Byte
  /-- The source's `expected_payload_length` (R21). -/
  expLen : U16
  deriving DecidableEq, Repr

/-- The values of R33: what NEW gives (R78) and what RESET_IDLE writes (R79). The expected length stays 0 until the
header is complete (R21; log 15). -/
def Decoder.reset : Decoder := { st := .idle, buf := [], expLen := 0 }

/-- The reasons of a noise event (R106). -/
inductive NoiseReason where
  | multipleStartTokens
  | doubleEscape
  | overflow
  | crcMismatch
  deriving DecidableEq, Repr

/-- A decoder event (R30, R65): a frame has no CRC field (C4), a noise carries only its reason (R107). -/
inductive Event where
  | frame (opcode : U16) (payload : List Byte)
  | noise (reason : NoiseReason)
  deriving DecidableEq, Repr

/-- The result of ENCODE (R64): `Ok(wire bytes)` or the one error, which carries no value (R108). -/
inductive EncodeResult where
  | ok (wire : List Byte)
  | payloadTooLarge
  deriving DecidableEq, Repr

/-- What the block hands out. -/
inductive Output where
  /-- An event of the decoder `inst` (R105). -/
  | event (inst : Nat) (e : Event)
  /-- The result of an ENCODE (R64). -/
  | encoded (r : EncodeResult)
  /-- The value of the internal function CRC16 (R68; log 9). -/
  | crc (v : U16)
  /-- The value of the internal function STUFF (R73; log 9). -/
  | stuffed (bytes : List Byte)
  deriving DecidableEq, Repr

/-- How a feed was made (log 6). -/
inductive Origin where
  /-- By the one agent that owns the instance, no other feed of it in progress. -/
  | owner
  /-- By an agent while another agent's feed of the same instance is in progress (R127). -/
  | overlap
  /-- From inside the consumer's handling of an event of the same instance (R128). -/
  | handler
  deriving DecidableEq, Repr

/-- One operation asked for: selector (R51), the byte of a FEED, how a feed was made, and the arguments. -/
structure Request where
  sel : BitVec 2
  byte : Byte
  origin : Origin
  args : Args
  deriving DecidableEq, Repr

/-- What the outside world asks for. -/
inductive Input where
  /-- One dispatched operation (R50, R51). -/
  | op (r : Request)
  /-- FEED_CHUNK (R96): the bytes still to be fed into the instance. -/
  | chunk (inst : Nat) (origin : Origin) (bytes : List Byte)
  /-- The owner drops the instance (R120, R124). -/
  | drop (inst : Nat)
  deriving DecidableEq, Repr

/-- The machine. `decoders` holds the instances that exist, by name, names strictly rising (log 2). -/
structure State where
  /-- The parameters the block was built with; no operation writes them (R28). -/
  params : Params
  /-- The decoder instances (R32, R118). -/
  decoders : List (Nat × Decoder)
  /-- The model's own field: what is asked for, next first (log 4). -/
  inputs : List Input
  /-- The model's own field: what the block has handed out, oldest first; nothing reads it (log 5). -/
  outputs : List Output
  deriving DecidableEq, Repr

/-- Why the model stops where the spec says it must. -/
inductive Fault where
  /-- Raised by step on a FEED word with state code 3 (R18, R54, ID1). Safe: the code is never written. -/
  | reservedState
  /-- Raised by step on a feed that overlaps another agent's (R127, ID3). Safe: the spec gives it no meaning. -/
  | concurrentFeed
  /-- Raised by step on a feed from inside the handling of an event (R128, ID4). Safe: the spec gives it no meaning. -/
  | reentrantFeed
  /-- Raised on a feed or a drop of an instance that does not exist: dropped (R124, ID16) or never created (R125).
  Safe: there is no state to step. -/
  | noDecoder
  /-- Raised by a FEED row's meaning on a state or byte that does not select that row (R53; log 8). Safe: step never
  raises it. -/
  | rowMismatch
  deriving DecidableEq, Repr

/-- Why the model refuses. -/
inductive Refusal where
  /-- Raised by exec's arm of a row that has no meaning yet; no arm does. Safe. -/
  | notModelled (mnemonic : String)
  /-- Raised by step on operation selector 3 (R51, ID2). Safe: the selector is reserved. -/
  | reservedSelector
  deriving DecidableEq, Repr

/-- The block right after reset: this hardware's parameters (R10) and one instance, just created (R121, R33; log 3);
nothing asked for and nothing handed out (log 4, log 5). -/
def State.reset : State where
  params := Params.hardware
  decoders := [(0, Decoder.reset)]
  inputs := []
  outputs := []

/-- What a step answers. -/
abbrev Answer := Host.Outcome State Fault Refusal

end Sys2Proof.Machine
end

