-- ==== Sys2Proof/Machine/Operands.lean ====
section
/-! DEFINITION. Operand forms: byte order (R13, R37), slices (R13), the fields of a collected frame (R58) and the layout of
an unescaped frame (R56). -/

namespace Sys2Proof.Machine

/-- `LE16(lo, hi)` (R13): a u16 from two bytes, least significant first. -/
def le16 (lo hi : Byte) : U16 := lo.setWidth 16 ||| (hi.setWidth 16 <<< 8)

/-- `bytesLE16(v)` (R13): a u16 as two bytes, least significant first. -/
def bytesLE16 (v : U16) : List Byte := [v.extractLsb' 0 8, v.extractLsb' 8 8]

/-- `slice(s, a, b)` (R13): elements `a` to `b - 1`. -/
def slice (s : List Byte) (a b : Nat) : List Byte := (s.drop a).take (b - a)

/-- `s[i]` (R13). Every use has `i < len(s)`, so the default is read by no rule (log 11). -/
def byteAt (s : List Byte) (i : Nat) : Byte := s.getD i 0

/-- Opcode field of a collected frame (R58). -/
def opcodeField (buf : List Byte) : U16 := le16 (byteAt buf 0) (byteAt buf 1)

/-- Length field of a collected frame (R58, R89). -/
def lengthField (buf : List Byte) : U16 := le16 (byteAt buf 2) (byteAt buf 3)

/-- Payload of a collected frame with length field `len` (R58, R93). -/
def payloadField (buf : List Byte) (len : U16) : List Byte :=
  slice buf Config.headerSize (Config.headerSize + len.toNat)

/-- Received CRC of a collected frame: its last two bytes (R58, R70). -/
def receivedCrc (buf : List Byte) : U16 := le16 (byteAt buf (buf.length - 2)) (byteAt buf (buf.length - 1))

/-- The bytes the CRC covers: all but the last two (R69, R93). -/
def crcCovered (buf : List Byte) : List Byte := slice buf 0 (buf.length - Config.crcSize)

/-- `header ++ payload` of a frame (R56, R74 step 1). -/
def headerAndPayload (opcode : U16) (payload : List Byte) : List Byte :=
  bytesLE16 opcode ++ bytesLE16 (BitVec.ofNat 16 payload.length) ++ payload

end Sys2Proof.Machine
end

