-- ==== Sys2Proof/Machine/Crc.lean ====
section
/-! DEFINITION. The function CRC16 (R67, R68), bit by bit as the spec lists it, for any CRC parameters. -/

namespace Sys2Proof.Machine

/-- One turn of R68's inner loop: shift left, truncated to 16 bits, and subtract the polynomial when bit 15 was set. -/
def crcBit (P : Params) (c : U16) : U16 :=
  if c.getLsbD 15 then (c <<< 1) ^^^ P.crcPoly else c <<< 1

/-- `n` turns of R68's inner loop. -/
def crcBits (P : Params) : Nat → U16 → U16
  | 0, c => c
  | n + 1, c => crcBits P n (crcBit P c)

/-- `reflect8` (R68). -/
def reflect8 (x : Byte) : Byte := x.reverse

/-- `reflect16` (R68). -/
def reflect16 (x : U16) : U16 := x.reverse

/-- One turn of R68's outer loop: take in one byte. -/
def crcByte (P : Params) (c : U16) (x : Byte) : U16 :=
  crcBits P 8 (c ^^^ ((if P.crcRefin then reflect8 x else x).setWidth 16 <<< 8))

/-- The CRC register after a byte sequence, from the register `c`. -/
def crcRegister (P : Params) : U16 → List Byte → U16
  | c, [] => c
  | c, x :: xs => crcRegister P (crcByte P c x) xs

/-- What R68 does after the last byte. -/
def crcFinish (P : Params) (c : U16) : U16 := (if P.crcRefout then reflect16 c else c) ^^^ P.crcXorout

/-- `CRC16(data)` (R68). -/
def crc16 (P : Params) (data : List Byte) : U16 := crcFinish P (crcRegister P P.crcInit data)

end Sys2Proof.Machine
end

