-- ==== Sys2Proof/Machine/Flags.lean ====
section
/-! DEFINITION. The block has no status flags or condition codes (R27). What a FEED step tests instead are the conditions
below; lengths and limits are Nat and never wrap (R94). -/

namespace Sys2Proof.Machine

/-- The completion limit `HEADER_SIZE + exp_len + CRC_SIZE` (R88, R94). -/
def completionLimit (expLen : U16) : Nat := Config.headerSize + expLen.toNat + Config.crcSize

/-- The append has just completed the header (R89). -/
abbrev headerComplete (n : Nat) : Prop := n = Config.headerSize

/-- The length field is above the decoder's bound (R90). -/
abbrev lengthAboveBound (P : Params) (expLen : U16) : Prop := P.maxPayload < expLen.toNat

/-- The frame is structurally complete (R91). -/
abbrev frameComplete (n : Nat) (expLen : U16) : Prop := Config.headerSize < n ∧ n = completionLimit expLen

/-- The buffer is past its completion length (R92). -/
abbrev pastCompletion (n : Nat) (expLen : U16) : Prop := completionLimit expLen < n

/-- The payload is longer than a length field can say (R74, R75); compared on the Nat length (R94). -/
abbrev payloadTooLong (payload : List Byte) : Prop := Config.maxLenField < payload.length

end Sys2Proof.Machine
end

