-- ==== Sys2Proof/Machine/Ops.lean ====
section
/-! DEFINITION. The named operations: over the instance table, over one decoder (the two resets, APPEND and its length
checks, the validator), over the outputs, and the one shape all FEED rows have. The block takes no exception (R109, R113);
what stands in its place is `violation`: a noise event and a reset in the same step. -/

namespace Sys2Proof.Machine

/-! ### The instance table -/

/-- The decoder a name stands for. -/
def Table.find : List (Nat × Decoder) → Nat → Option Decoder
  | [], _ => none
  | (k, D) :: t, n => if n = k then some D else Table.find t n

/-- Give a name a decoder; names stay strictly rising. -/
def Table.set : List (Nat × Decoder) → Nat → Decoder → List (Nat × Decoder)
  | [], n, D => [(n, D)]
  | (k, E) :: t, n, D =>
    if n < k then (n, D) :: (k, E) :: t
    else if n = k then (n, D) :: t
    else (k, E) :: Table.set t n D

/-- Take a name away. -/
def Table.erase : List (Nat × Decoder) → Nat → List (Nat × Decoder)
  | [], _ => []
  | (k, E) :: t, n => if n = k then t else (k, E) :: Table.erase t n

/-- The table's one canonical form: names strictly rising. -/
abbrev Table.wf (t : List (Nat × Decoder)) : Prop := (t.map Prod.fst).Pairwise (· < ·)

/-- The decoder instance named `inst`, if it exists. -/
def State.decoder? (s : State) (inst : Nat) : Option Decoder := Table.find s.decoders inst

/-- Write the decoder instance named `inst`. -/
def State.setDecoder (s : State) (inst : Nat) (D : Decoder) : State :=
  { s with decoders := Table.set s.decoders inst D }

/-- Drop the decoder instance named `inst`. -/
def State.eraseDecoder (s : State) (inst : Nat) : State :=
  { s with decoders := Table.erase s.decoders inst }

/-! ### Outputs -/

/-- Hand out one output. -/
def State.putOut (s : State) (o : Output) : State := { s with outputs := s.outputs ++ [o] }

/-- `emit` (R14): hand out a step's events, which are of the decoder `inst`. -/
def State.emit (s : State) (inst : Nat) (es : List Event) : State :=
  { s with outputs := s.outputs ++ es.map (Output.event inst) }

/-! ### State and noise codes -/

/-- The code of a decoder state (R18). -/
def St.code : St → BitVec 2
  | .idle => StCode.idle
  | .collecting => StCode.collecting
  | .escaping => StCode.escaping
  | .reserved => StCode.reserved

/-- The decoder state with a code. -/
def St.ofCode (c : BitVec 2) : St :=
  if c = StCode.idle then .idle
  else if c = StCode.collecting then .collecting
  else if c = StCode.escaping then .escaping
  else .reserved

/-- The decoder is in COLLECTING or ESCAPING (R16 'active'). -/
def St.active : St → Bool
  | .idle => false
  | .collecting => true
  | .escaping => true
  | .reserved => false

/-- The numeric code of a noise reason (R106). -/
def NoiseReason.code : NoiseReason → Nat
  | .multipleStartTokens => 0
  | .doubleEscape => 1
  | .overflow => 2
  | .crcMismatch => 3

/-! ### One decoder -/

/-- `RESET_IDLE` (R79). -/
def resetIdle : Decoder := { st := .idle, buf := [], expLen := 0 }

/-- `RESET_COLLECTING` (R79, R34). -/
def resetCollecting : Decoder := { st := .collecting, buf := [], expLen := 0 }

/-- The response to a protocol violation (R113): the noise event and the reset, in one step. -/
def violation (reason : NoiseReason) (after : Decoder) : Decoder × List Event := (after, [.noise reason])

/-- `VALIDATE` (R93), on a structurally complete buffer. -/
def validate (P : Params) (D : Decoder) : Decoder × List Event :=
  if crc16 P (crcCovered D.buf) ≠ receivedCrc D.buf then violation .crcMismatch resetIdle
  else (resetIdle, [.frame (opcodeField D.buf) (payloadField D.buf D.expLen)])

/-- The length checks after the header parse (R88, R91, R92). -/
def lengthChecks (P : Params) (D : Decoder) : Decoder × List Event :=
  if frameComplete D.buf.length D.expLen then validate P D
  else if pastCompletion D.buf.length D.expLen then violation .overflow resetIdle
  else (D, [])

/-- `HEADER_PARSE` (R89) with the bound of R90; the step goes on to the length checks when the bound holds. -/
def headerParse (P : Params) (D : Decoder) : Decoder × List Event :=
  let len := lengthField D.buf
  if lengthAboveBound P len then violation .overflow resetIdle
  else lengthChecks P { D with expLen := len }

/-- `APPEND(v)` (R88). -/
def append (P : Params) (D : Decoder) (v : Byte) : Decoder × List Event :=
  let D' := { D with buf := D.buf ++ [v] }
  if headerComplete D'.buf.length then headerParse P D' else lengthChecks P D'

/-- Return to COLLECTING and append the un-escaped byte (R87). -/
def appendEscaped (P : Params) (D : Decoder) (b : Byte) : Decoder × List Event :=
  append P { D with st := .collecting } (b ^^^ P.escapeMask)

/-! ### The shape of a FEED row -/

/-- One FEED row on the instance `inst`: `row` is the state the row is for, `fits` says the byte is one the row is for,
`act` is what the row does to the decoder and which events it emits. A state or byte of another row is a fault (R53;
log 8), an instance that does not exist too (ID16; log 7). -/
def feedRow (inst : Nat) (row : St) (fits : Params → Bool) (act : Params → Decoder → Decoder × List Event)
    (s : State) : Answer :=
  match s.decoder? inst with
  | none => .fault .noDecoder
  | some D =>
    if D.st = row ∧ fits s.params = true then
      let r := act s.params D
      .next ((s.setDecoder inst r.1).emit inst r.2)
    else .fault .rowMismatch

end Sys2Proof.Machine
end

