-- ==== Sys2Proof/Machine/Encoder.lean ====
section
/-! DEFINITION. The FrameEncoder: STUFF (R73) and ENCODE (R74, R75), and the internal rows CRC16 and STUFF as operations. -/

namespace Sys2Proof.Machine

/-- The wire form of one byte (R73). -/
def stuffByte (P : Params) (x : Byte) : List Byte :=
  if x = P.startToken ∨ x = P.escapeToken then [P.escapeToken, x ^^^ P.escapeMask] else [x]

/-- `STUFF(b)` (R73). -/
def stuff (P : Params) : List Byte → List Byte
  | [] => []
  | x :: xs => stuffByte P x ++ stuff P xs

/-- The unescaped frame of R56: header, payload and the CRC over both (R74 steps 1 and 2). -/
def unescapedFrame (P : Params) (opcode : U16) (payload : List Byte) : List Byte :=
  headerAndPayload opcode payload ++ bytesLE16 (crc16 P (headerAndPayload opcode payload))

/-- The wire bytes of a frame (R57). -/
def wireBytes (P : Params) (opcode : U16) (payload : List Byte) : List Byte :=
  P.startToken :: stuff P (unescapedFrame P opcode payload)

/-- `ENCODE(opcode, payload)` (R74); its bound is MAX_LEN_FIELD, not MAX_PAYLOAD (R76). -/
def encodeFrame (P : Params) (opcode : U16) (payload : List Byte) : EncodeResult :=
  if payloadTooLong payload then .payloadTooLarge else .ok (wireBytes P opcode payload)

/-- ENCODE (R74): hands out its result and writes no state (R23). -/
def execEncode (opcode : U16) (payload : List Byte) (s : State) : Answer :=
  .next (s.putOut (.encoded (encodeFrame s.params opcode payload)))

/-- CRC16 (R68): hands out the value; no state is written (R24; log 9). -/
def execCrc16 (data : List Byte) (s : State) : Answer := .next (s.putOut (.crc (crc16 s.params data)))

/-- STUFF (R73): hands out the value; no state is written (R23; log 9). -/
def execStuff (bytes : List Byte) (s : State) : Answer := .next (s.putOut (.stuffed (stuff s.params bytes)))

end Sys2Proof.Machine
end

