-- ==== Sys2Proof/Machine/FeedCollecting.lean ====
section
/-! DEFINITION. FEED in COLLECTING (R82 to R84). -/

namespace Sys2Proof.Machine

/-- FEED.COLL.START (R82): the token opens a new frame. -/
def execFeedCollStart (inst : Nat) (s : State) : Answer :=
  feedRow inst .collecting (fun _ => true) (fun _ _ => violation .multipleStartTokens resetCollecting) s

/-- FEED.COLL.ESCAPE (R83): nothing is appended and no length check runs. -/
def execFeedCollEscape (inst : Nat) (s : State) : Answer :=
  feedRow inst .collecting (fun _ => true) (fun _ D => ({ D with st := .escaping }, [])) s

/-- FEED.COLL.DATA (R84). -/
def execFeedCollData (inst : Nat) (b : Byte) (s : State) : Answer :=
  feedRow inst .collecting (fun P => b != P.startToken && b != P.escapeToken) (fun P D => append P D b) s

end Sys2Proof.Machine
end

