-- ==== Sys2Proof/Machine/FeedEscaping.lean ====
section
/-! DEFINITION. FEED in ESCAPING (R85 to R87), under either policy (R55, D6). -/

namespace Sys2Proof.Machine

/-- FEED.ESC.START (R85). -/
def execFeedEscStart (inst : Nat) (s : State) : Answer :=
  feedRow inst .escaping (fun _ => true)
    (fun P D =>
      match P.escPolicy with
      | .tokenFirst => violation .multipleStartTokens resetCollecting
      | .literal => appendEscaped P D P.startToken) s

/-- FEED.ESC.ESCAPE (R86). -/
def execFeedEscEscape (inst : Nat) (s : State) : Answer :=
  feedRow inst .escaping (fun _ => true)
    (fun P D =>
      match P.escPolicy with
      | .tokenFirst => violation .doubleEscape resetIdle
      | .literal => appendEscaped P D P.escapeToken) s

/-- FEED.ESC.DATA (R87): any byte that is not a token; under LITERAL any byte. -/
def execFeedEscData (inst : Nat) (b : Byte) (s : State) : Answer :=
  feedRow inst .escaping
    (fun P => P.escPolicy == .literal || (b != P.startToken && b != P.escapeToken))
    (fun P D => appendEscaped P D b) s

end Sys2Proof.Machine
end

