-- ==== Sys2Proof/Machine/FeedIdle.lean ====
section
/-! DEFINITION. FEED in IDLE (R80, R81). -/

namespace Sys2Proof.Machine

/-- FEED.IDLE.START (R80). -/
def execFeedIdleStart (inst : Nat) (s : State) : Answer :=
  feedRow inst .idle (fun _ => true) (fun _ _ => (resetCollecting, [])) s

/-- FEED.IDLE.OTHER (R81): the byte is silently discarded, an ESCAPE_TOKEN too. -/
def execFeedIdleOther (inst : Nat) (b : Byte) (s : State) : Answer :=
  feedRow inst .idle (fun P => b != P.startToken) (fun _ D => (D, [])) s

end Sys2Proof.Machine
end

