-- ==== Sys2Proof/Machine/Lifecycle.lean ====
section
/-! DEFINITION. Creating a decoder (NEW, R78) and dropping one (R124). -/

namespace Sys2Proof.Machine

/-- NEW (R78): the instance `inst` is a fresh decoder; an older one of that name is dropped with it (R66, R123; log 2). -/
def execNew (inst : Nat) (s : State) : Answer := .next (s.setDecoder inst Decoder.reset)

/-- The owner drops the instance (R124): its partial buffer is lost and nothing is emitted. Dropping one that does not
exist is a fault (log 7). -/
def dropDecoder (inst : Nat) (s : State) : Answer :=
  match s.decoder? inst with
  | none => .fault .noDecoder
  | some _ => .next (s.eraseDecoder inst)

end Sys2Proof.Machine
end

