-- ==== Sys2Proof/Machine/Dispatch.lean ====
section
/-! DEFINITION. One arm per row of the opcode table. -/

namespace Sys2Proof.Machine

def exec (i : Instr) (s : State) : Host.Outcome State Fault Refusal :=
  match i with
  | .new inst => Sys2Proof.Machine.execNew inst s
  | .feedIdleStart inst => Sys2Proof.Machine.execFeedIdleStart inst s
  | .feedIdleOther inst b => Sys2Proof.Machine.execFeedIdleOther inst b s
  | .feedCollStart inst => Sys2Proof.Machine.execFeedCollStart inst s
  | .feedCollEscape inst => Sys2Proof.Machine.execFeedCollEscape inst s
  | .feedCollData inst b => Sys2Proof.Machine.execFeedCollData inst b s
  | .feedEscStart inst => Sys2Proof.Machine.execFeedEscStart inst s
  | .feedEscEscape inst => Sys2Proof.Machine.execFeedEscEscape inst s
  | .feedEscData inst b => Sys2Proof.Machine.execFeedEscData inst b s
  | .encode opcode payload => Sys2Proof.Machine.execEncode opcode payload s
  | .crc16 data => Sys2Proof.Machine.execCrc16 data s
  | .stuff bytes => Sys2Proof.Machine.execStuff bytes s

end Sys2Proof.Machine
end

