-- ==== Sys2Proof/Machine/Fetch.lean ====
section
/-! DEFINITION. From what is asked for next to an operation: the dispatch word is formed from the request and, for a FEED,
the decoder's own state (R51, R53), decoded, and run. -/

namespace Sys2Proof.Machine

/-- The decoder a feed is for, or the fault the spec gives the way the feed was made: one that overlaps another (R127),
one from inside an event's handling (R128), one of an instance that does not exist (R124, R125). -/
def feedTarget (inst : Nat) (origin : Origin) (s : State) : Except Fault Decoder :=
  match origin with
  | .overlap => .error .concurrentFeed
  | .handler => .error .reentrantFeed
  | .owner =>
    match s.decoder? inst with
    | none => .error .noDecoder
    | some D => .ok D

/-- The dispatch word of a request; a FEED's is formed from the decoder's own state (R53). -/
def Request.word (r : Request) (s : State) : Except Fault DispatchWord :=
  if r.sel = Sel.feed then
    match feedTarget r.args.inst r.origin s with
    | .error f => .error f
    | .ok D => .ok (feedWord D.st.code r.byte)
  else .ok (selWord r.sel)

/-- Form the request's word, decode it and run the operation it selects. -/
def perform (r : Request) (s : State) : Answer :=
  match r.word s with
  | .error f => .fault f
  | .ok d =>
    match decode s.params d r.args with
    | .ok i => exec i s
    | .error .reservedSelector => .refused .reservedSelector
    | .error .reservedState => .fault .reservedState

/-- The request for a FEED of one byte. -/
def Request.ofFeed (inst : Nat) (origin : Origin) (b : Byte) : Request :=
  { sel := Sel.feed, byte := b, origin := origin, args := Args.ofInst inst }

/-- The request for a NEW. -/
def Request.ofNew (inst : Nat) : Request :=
  { sel := Sel.new, byte := 0, origin := .owner, args := Args.ofInst inst }

/-- The request for an ENCODE. -/
def Request.ofEncode (opcode : U16) (payload : List Byte) : Request :=
  { sel := Sel.encode, byte := 0, origin := .owner, args := { inst := 0, opcode := opcode, payload := payload } }

/-- A chunk with no bytes changes nothing and emits nothing (R96); it is a feed all the same, so R127, R128 and R124
hold of it. -/
def feedNothing (inst : Nat) (origin : Origin) (s : State) : Answer :=
  match feedTarget inst origin s with
  | .error f => .fault f
  | .ok _ => .next s

/-- What is left asked for after a chunk's first byte: nothing more of the chunk when that was its last. -/
def chunkRest (inst : Nat) (origin : Origin) (bs : List Byte) (rest : List Input) : List Input :=
  match bs with
  | [] => rest
  | _ :: _ => .chunk inst origin bs :: rest

/-- Take what is asked for next: nothing (R120), one operation (R9), one byte of a chunk (R41), a chunk with no bytes
(R96), or a drop (R124). -/
def takeInput (s : State) : Answer :=
  match s.inputs with
  | [] => .next s
  | .op r :: rest => perform r { s with inputs := rest }
  | .chunk inst origin [] :: rest => feedNothing inst origin { s with inputs := rest }
  | .chunk inst origin (b :: bs) :: rest =>
    perform (Request.ofFeed inst origin b) { s with inputs := chunkRest inst origin bs rest }
  | .drop inst :: rest => dropDecoder inst { s with inputs := rest }

/-- Ask, next, for the operation a dispatch word of the opcode table selects, every argument zero (log 10). A FEED word
also carries the state code it is decoded in, so the instance 0 is put into that state; the rest of it stays, and an
instance that does not exist is created. -/
def placeWord (s : State) (d : DispatchWord) : State :=
  let r : Request :=
    { sel := d.extractLsb' 10 2, byte := d.extractLsb' 0 8, origin := .owner, args := Args.ofInst 0 }
  let s' := { s with inputs := .op r :: s.inputs }
  if r.sel = Sel.feed then
    s'.setDecoder 0 { (s.decoder? 0).getD Decoder.reset with st := St.ofCode (d.extractLsb' 8 2) }
  else s'

end Sys2Proof.Machine
end

