-- ==== Sys2Proof/Machine/Step.lean ====
section
/-! DEFINITION. One step of the machine, and the host's way to place an operation where the next step takes it. -/

namespace Sys2Proof.Machine

/-- One step (R9): take what is asked for next and do it. -/
def step (s : State) : Host.Outcome State Fault Refusal := takeInput s

/-- The state in which the very next step runs the operation of the opcode-table word `w` (log 10). -/
def State.withFetchWord (s : State) (_nbits w : Nat) : State := placeWord s (tableWord w)

end Sys2Proof.Machine
end

