-- ==== Sys2Proof/Machine/Program.lean ====
section
/-! DEFINITION. The program notation of R66: a list of statements, turned into what is asked of the block, run in order on
the machine, and the program's end state: every named decoder and the event list of every FEED. ENCODE binds a name to a
result; FEED of a name feeds the byte sequence it holds; SEND encodes and, on Ok, feeds (log 13). -/

namespace Sys2Proof.Machine

/-- A statement of a program (R66). -/
inductive Stmt where
  /-- `NEW d` -/
  | new (d : Nat)
  /-- `FEED d, [b0, b1, ...]` -/
  | feed (d : Nat) (bytes : List Byte)
  /-- `FEED d, t` -/
  | feedName (d t : Nat)
  /-- `ENCODE t, op, [p0, ...]` -/
  | encode (t : Nat) (opcode : U16) (payload : List Byte)
  /-- `SEND d, op, [p0, ...]` -/
  | send (d : Nat) (opcode : U16) (payload : List Byte)
  deriving DecidableEq, Repr

/-- The results that a program's names hold, the latest first. -/
abbrev Names := List (Nat × EncodeResult)

/-- The byte sequence a name holds, if it holds one. -/
def Names.bytes : Names → Nat → Option (List Byte)
  | [], _ => none
  | (k, r) :: ns, t =>
    if t = k then
      match r with
      | .ok w => some w
      | .payloadTooLarge => none
    else Names.bytes ns t

/-- The chunk that SEND feeds: the wire bytes on Ok, else no step. -/
def sendChunk (d : Nat) : EncodeResult → List Input
  | .ok w => [.chunk d .owner w]
  | .payloadTooLarge => []

/-- What one statement asks of the block, and the names after it; none when it feeds a name that holds no byte
sequence. -/
def Stmt.inputs (P : Params) (ns : Names) : Stmt → Option (List Input × Names)
  | .new d => some ([.op (.ofNew d)], ns)
  | .feed d bs => some ([.chunk d .owner bs], ns)
  | .feedName d t =>
    match ns.bytes t with
    | none => none
    | some w => some ([.chunk d .owner w], ns)
  | .encode t op p => some ([.op (.ofEncode op p)], (t, encodeFrame P op p) :: ns)
  | .send d op p => some (.op (.ofEncode op p) :: sendChunk d (encodeFrame P op p), ns)

/-- What a program asks of the block, in order. -/
def programInputs (P : Params) (ns : Names) : List Stmt → Option (List Input)
  | [] => some []
  | st :: sts =>
    match st.inputs P ns with
    | none => none
    | some r =>
      match programInputs P r.2 sts with
      | none => none
      | some is => some (r.1 ++ is)

/-! ### Running a program -/

/-- `k` steps, stopping at the first fault or refusal: the host's `Host.Core.run` of this machine, at its own types. -/
def run : Nat → State → Answer
  | 0, s => .next s
  | k + 1, s =>
    match step s with
    | .next s' => run k s'
    | .fault f => .fault f
    | .refused r => .refused r

/-- How far a program has come: the machine, the results its names hold, the decoders it has named, in the order of their
first mention, and the event list of every FEED so far, in order. -/
structure ProgramRun where
  state : State
  names : Names
  named : List Nat
  feeds : List (List Event)
  deriving DecidableEq, Repr

/-- What a program comes to. -/
inductive ProgramAnswer where
  | ended (r : ProgramRun)
  /-- The machine faulted, so the program has no end state. -/
  | fault (f : Fault)
  /-- The machine refused, so the program has no end state. -/
  | refused (q : Refusal)
  /-- A FEED of a name that holds no byte sequence, to which R66 gives no meaning (log 13). -/
  | unbound
  deriving DecidableEq, Repr

/-- A program that has run no statement yet. -/
def ProgramRun.start (s : State) : ProgramRun := { state := s, names := [], named := [], feeds := [] }

/-- How many steps take an input: one, or one a byte of a chunk (R41). -/
def Input.steps : Input → Nat
  | .op _ => 1
  | .chunk _ _ [] => 1
  | .chunk _ _ (b :: bs) => (b :: bs).length
  | .drop _ => 1

/-- The event that an output is, if it is one. -/
def Output.event? : Output → Option Event
  | .event _ e => some e
  | .encoded _ => none
  | .crc _ => none
  | .stuffed _ => none

/-- The events handed out from the state `s` to the later state `t`. -/
def eventsBetween (s t : State) : List Event := (t.outputs.drop s.outputs.length).filterMap Output.event?

/-- The event lists that an input taken from `s` to `t` adds to a program's: a chunk's one, which is empty when it emitted
nothing. -/
def Input.feeds (s t : State) : Input → List (List Event)
  | .op _ => []
  | .chunk _ _ _ => [eventsBetween s t]
  | .drop _ => []

/-- Ask the machine for inputs in order, each run to its end before the next. -/
def ProgramRun.take : List Input → ProgramRun → ProgramAnswer
  | [], r => .ended r
  | x :: xs, r =>
    match run x.steps { r.state with inputs := x :: r.state.inputs } with
    | .next t => ProgramRun.take xs { r with state := t, feeds := r.feeds ++ x.feeds r.state t }
    | .fault f => .fault f
    | .refused q => .refused q

/-- The decoder that a statement names. -/
def Stmt.decoderName : Stmt → Option Nat
  | .new d => some d
  | .feed d _ => some d
  | .feedName d _ => some d
  | .encode _ _ _ => none
  | .send d _ _ => some d

/-- The decoders named, with those of one more statement. -/
def addName (named : List Nat) : Option Nat → List Nat
  | none => named
  | some d => if d ∈ named then named else named ++ [d]

/-- Run one statement. -/
def Stmt.run (st : Stmt) (r : ProgramRun) : ProgramAnswer :=
  match st.inputs r.state.params r.names with
  | none => .unbound
  | some q => ProgramRun.take q.1 { r with names := q.2, named := addName r.named st.decoderName }

/-- Run a program's statements in order (R66). -/
def runProgram : List Stmt → ProgramRun → ProgramAnswer
  | [], r => .ended r
  | st :: sts, r =>
    match st.run r with
    | .ended r' => runProgram sts r'
    | .fault f => .fault f
    | .refused q => .refused q
    | .unbound => .unbound

/-- The end state of a program (R66): every named decoder, and the event list of every FEED, in order. -/
structure ProgramEnd where
  decoders : List (Nat × Decoder)
  feeds : List (List Event)
  deriving DecidableEq, Repr

/-- The end state that a program has come to. -/
def ProgramRun.programEnd (r : ProgramRun) : ProgramEnd where
  decoders := r.named.filterMap (fun d => (r.state.decoder? d).map (fun D => (d, D)))
  feeds := r.feeds

/-- The end state of a program that is run from the state `s`, if it has one. -/
def programEnd (prog : List Stmt) (s : State) : Option ProgramEnd :=
  match runProgram prog (ProgramRun.start s) with
  | .ended r => some r.programEnd
  | .fault _ => none
  | .refused _ => none
  | .unbound => none

end Sys2Proof.Machine
end

