-- ==== Sys2Proof/Machine/Reference.lean ====
section
/-! DEFINITION. The decoder as the spec lists it whole: FEED in one listing (R95) and FEED_CHUNK (R96), as functions of one
decoder, and what the wire bytes of a frame's inside stand for. The machine runs the rows of the opcode table; that the
two agree is an obligation. -/

namespace Sys2Proof.Machine

/-- `FEED(b)` (R95): the decoder after the byte and the step's events; none on state code 3, which no rule gives a
meaning (R18). -/
def Decoder.feed (P : Params) (D : Decoder) (b : Byte) : Option (Decoder × List Event) :=
  match D.st with
  | .idle => if b = P.startToken then some (resetCollecting, []) else some (D, [])
  | .collecting =>
    if b = P.startToken then some (resetCollecting, [.noise .multipleStartTokens])
    else if b = P.escapeToken then some ({ D with st := .escaping }, [])
    else some (append P D b)
  | .escaping =>
    if P.escPolicy = .tokenFirst ∧ b = P.startToken then some (resetCollecting, [.noise .multipleStartTokens])
    else if P.escPolicy = .tokenFirst ∧ b = P.escapeToken then some (resetIdle, [.noise .doubleEscape])
    else some (append P { D with st := .collecting } (b ^^^ P.escapeMask))
  | .reserved => none

/-- `FEED_CHUNK(bs)` (R96): the steps of the bytes in order, their event lists joined in order. -/
def Decoder.feedChunk (P : Params) : Decoder → List Byte → Option (Decoder × List Event)
  | D, [] => some (D, [])
  | D, b :: bs =>
    match Decoder.feed P D b with
    | none => none
    | some r =>
      match Decoder.feedChunk P r.1 bs with
      | none => none
      | some q => some (q.1, r.2 ++ q.2)

/-- What the wire bytes of the inside of a frame stand for: the bytes they append, and whether an escape prefix is left
pending after them; `pending` says whether one is before them. None where they hold a START_TOKEN or a double escape;
under LITERAL every byte after a prefix is un-escaped (R55). -/
def unstuff (P : Params) : Bool → List Byte → Option (List Byte × Bool)
  | pending, [] => some ([], pending)
  | false, b :: bs =>
    if b = P.startToken then none
    else if b = P.escapeToken then unstuff P true bs
    else (unstuff P false bs).map (fun r => (b :: r.1, r.2))
  | true, b :: bs =>
    if P.escPolicy = .tokenFirst ∧ P.IsToken b then none
    else (unstuff P false bs).map (fun r => ((b ^^^ P.escapeMask) :: r.1, r.2))

end Sys2Proof.Machine
end

