-- ==== Sys2Proof/Safety.lean ====
section
/-! DEFINITION. What a good state is: R22's invariant of a decoder, and of the machine the canonical instance table, R22 for
every instance and legal parameters (R11). -/

namespace Sys2Proof.Machine

/-- R22's invariant of a decoder, for the parameters `P`. A good decoder is never in state code 3 (R18). -/
def Decoder.Good (P : Params) (D : Decoder) : Prop :=
  match D.st with
  | .idle => D.buf = [] ∧ D.expLen = 0
  | .collecting | .escaping =>
    (D.buf.length < Config.headerSize → D.expLen = 0) ∧
    (Config.headerSize ≤ D.buf.length →
      D.expLen = lengthField D.buf ∧ D.expLen.toNat ≤ P.maxPayload ∧ D.buf.length < completionLimit D.expLen)
  | .reserved => False

/-- A good machine state. -/
structure State.Good (s : State) : Prop where
  params_legal : s.params.Legal
  table_wf : Table.wf s.decoders
  decoders_good : ∀ inst D, s.decoder? inst = some D → D.Good s.params

/-- Every instance but `inst` is as before. -/
def State.OthersSame (inst : Nat) (s t : State) : Prop := ∀ n, n ≠ inst → t.decoder? n = s.decoder? n

/-- The answer `a`, in the state `s`, completes a FEED of the instance `inst`: a next state in which that instance is
`D`, the events `es` of it were handed out in order, and nothing else changed. -/
def Feeds (inst : Nat) (D : Decoder) (es : List Event) (s : State) (a : Answer) : Prop :=
  ∃ t, a = .next t ∧ t.decoder? inst = some D ∧ State.OthersSame inst s t ∧ t.params = s.params ∧
    t.inputs = s.inputs ∧ t.outputs = s.outputs ++ es.map (Output.event inst)

/-- What a program has come to, `r'`, is what it had come to before, `r`, with the decoder `d` now `D` and the event lists
`fs` after the earlier ones; every other instance, the parameters and the caller's other inputs are as before. -/
structure ProgramRun.Continues (d : Nat) (D : Decoder) (fs : List (List Event)) (r r' : ProgramRun) : Prop where
  decoder : r'.state.decoder? d = some D
  others : State.OthersSame d r.state r'.state
  params : r'.state.params = r.state.params
  inputs : r'.state.inputs = r.state.inputs
  feeds : r'.feeds = r.feeds ++ fs
  named : r'.named = if d ∈ r.named then r.named else r.named ++ [d]

end Sys2Proof.Machine

namespace Sys2Proof

/-- The instance an operation is for; none for the encoder and the internal functions (R23, R24). -/
def Instr.target : Instr → Option Nat
  | .new inst => some inst
  | .feedIdleStart inst => some inst
  | .feedIdleOther inst _ => some inst
  | .feedCollStart inst => some inst
  | .feedCollEscape inst => some inst
  | .feedCollData inst _ => some inst
  | .feedEscStart inst => some inst
  | .feedEscEscape inst => some inst
  | .feedEscData inst _ => some inst
  | .encode _ _ => none
  | .crc16 _ => none
  | .stuff _ => none

end Sys2Proof
end

