-- ==== Sys2Proof/WellFormed.lean ====
section
/-! DEFINITION. Which terms of Instr are rows the decode word can select (R52, R53, R55): the byte of an 'any other' row is
not one a more specific row takes, and the two token rows of ESCAPING exist under TOKEN_FIRST only. -/

namespace Sys2Proof

/-- Well-formedness of an operation under the parameters `P`. ENCODE has no condition: every u16 is legal (R61) and a
payload of any length is an operand (R74, D19). CRC16 and STUFF take any byte sequence (R68, R73). -/
def Instr.wf (P : Params) : Instr → Bool
  | .new _ => true
  | .feedIdleStart _ => true
  | .feedIdleOther _ b => b != P.startToken
  | .feedCollStart _ => true
  | .feedCollEscape _ => true
  | .feedCollData _ b => b != P.startToken && b != P.escapeToken
  | .feedEscStart _ => P.escPolicy == .tokenFirst
  | .feedEscEscape _ => P.escPolicy == .tokenFirst
  | .feedEscData _ b => P.escPolicy == .literal || (b != P.startToken && b != P.escapeToken)
  | .encode _ _ => true
  | .crc16 _ => true
  | .stuff _ => true

end Sys2Proof
end

