-- ==== Sys2Proof/Certificates/Slice0/Obligations.lean ====
section
/-! DEFINITION. The statements for the provers, one definition each. -/

open Sys2Proof Sys2Proof.Machine

/-! ### Parameters, reset and creation -/

/-- R10, R67 and the last sentences of R11: the values this hardware takes, and that they are legal.
R11's sentence and R10's BUF_CAP are marked derived in the spec. -/
def Obligations.HardwareTakesTheParameterValues : Prop :=
  let P := State.reset.params
  (Config.opcodeSize = 2 ∧ Config.lengthSize = 2 ∧ Config.crcSize = 2 ∧
    Config.headerSize = Config.opcodeSize + Config.lengthSize ∧
    Config.frameOverhead = Config.headerSize + Config.crcSize ∧ Config.maxLenField = 2 ^ (8 * Config.lengthSize) - 1) ∧
  (P.startToken = 0x7E ∧ P.escapeToken = 0x7D ∧ P.escapeMask = 0x20 ∧ P.maxPayload = 65535 ∧ P.bufCap = 65541 ∧
    P.escPolicy = .tokenFirst) ∧
  (P.crcPoly = 0x1021 ∧ P.crcInit = 0xFFFF ∧ P.crcRefin = false ∧ P.crcRefout = false ∧ P.crcXorout = 0x0000) ∧
  P.Legal

/-- The block after reset. That there is one instance, named 0, is the model's choice (log 3), that nothing is asked for
or handed out too (log 4, log 5); its values are R33's. -/
def Obligations.ResetHoldsOneFreshDecoder : Prop :=
  State.reset.decoder? 0 = some { st := .idle, buf := [], expLen := 0 } ∧
  (∀ n, n ≠ 0 → State.reset.decoder? n = none) ∧ State.reset.inputs = [] ∧ State.reset.outputs = []

/-- R78: NEW always completes, gives a decoder in the reset state and emits nothing.
That NEW on a name in use replaces the older instance is the model's choice (log 2). -/
def Obligations.NewCreatesADecoderInTheResetState : Prop :=
  ∀ (s : State) (inst : Nat), Feeds inst { st := .idle, buf := [], expLen := 0 } [] s (exec (.new inst) s)

/-! ### The FEED rows -/

/-- R80: a START_TOKEN in IDLE opens a frame, and no other operation takes a decoder out of IDLE. -/
def Obligations.StartTokenInIdleOpensAFrame : Prop :=
  (∀ (s : State) (inst : Nat) (D : Decoder), s.decoder? inst = some D → D.st = .idle →
    Feeds inst { st := .collecting, buf := [], expLen := 0 } [] s (exec (.feedIdleStart inst) s)) ∧
  (∀ (i : Instr) (s t : State) (inst : Nat) (D D' : Decoder), s.decoder? inst = some D → D.st = .idle →
    exec i s = .next t → t.decoder? inst = some D' → D'.st ≠ .idle → i = .feedIdleStart inst)

/-- R81: any other byte in IDLE, an ESCAPE_TOKEN too, is silently discarded. -/
def Obligations.OtherByteInIdleIsDiscarded : Prop :=
  ∀ (s : State) (inst : Nat) (D : Decoder) (b : Byte), s.decoder? inst = some D → D.st = .idle →
    b ≠ s.params.startToken → Feeds inst D [] s (exec (.feedIdleOther inst b) s)

/-- R82: a START_TOKEN in COLLECTING is a violation and opens a new frame, whatever was collected. -/
def Obligations.StartTokenInCollectingRestarts : Prop :=
  ∀ (s : State) (inst : Nat) (D : Decoder), s.decoder? inst = some D → D.st = .collecting →
    Feeds inst { st := .collecting, buf := [], expLen := 0 } [.noise .multipleStartTokens] s
      (exec (.feedCollStart inst) s)

/-- R83: an ESCAPE_TOKEN in COLLECTING arms escaping and leaves the buffer and the expected length. -/
def Obligations.EscapeTokenInCollectingArmsEscaping : Prop :=
  ∀ (s : State) (inst : Nat) (D : Decoder), s.decoder? inst = some D → D.st = .collecting →
    Feeds inst { st := .escaping, buf := D.buf, expLen := D.expLen } [] s (exec (.feedCollEscape inst) s)

/-- R84: a data byte in COLLECTING is appended verbatim; the events are APPEND's. -/
def Obligations.DataByteInCollectingIsAppended : Prop :=
  ∀ (s : State) (inst : Nat) (D : Decoder) (b : Byte), s.decoder? inst = some D → D.st = .collecting →
    b ≠ s.params.startToken → b ≠ s.params.escapeToken →
    Feeds inst (append s.params D b).1 (append s.params D b).2 s (exec (.feedCollData inst b) s) ∧
    (append s.params D b).2.length ≤ 1

/-- R85, under either policy. -/
def Obligations.StartTokenInEscaping : Prop :=
  ∀ (s : State) (inst : Nat) (D : Decoder), s.decoder? inst = some D → D.st = .escaping →
    (s.params.escPolicy = .tokenFirst →
      Feeds inst { st := .collecting, buf := [], expLen := 0 } [.noise .multipleStartTokens] s
        (exec (.feedEscStart inst) s)) ∧
    (s.params.escPolicy = .literal →
      let r := append s.params { D with st := .collecting } (s.params.startToken ^^^ s.params.escapeMask)
      Feeds inst r.1 r.2 s (exec (.feedEscStart inst) s))

/-- R86, under either policy. -/
def Obligations.EscapeTokenInEscaping : Prop :=
  ∀ (s : State) (inst : Nat) (D : Decoder), s.decoder? inst = some D → D.st = .escaping →
    (s.params.escPolicy = .tokenFirst →
      Feeds inst { st := .idle, buf := [], expLen := 0 } [.noise .doubleEscape] s (exec (.feedEscEscape inst) s)) ∧
    (s.params.escPolicy = .literal →
      let r := append s.params { D with st := .collecting } (s.params.escapeToken ^^^ s.params.escapeMask)
      Feeds inst r.1 r.2 s (exec (.feedEscEscape inst) s))

/-- R87: the byte after an escape prefix, un-escaped, is appended; under LITERAL that is any byte. -/
def Obligations.ByteInEscapingIsUnescapedAndAppended : Prop :=
  ∀ (s : State) (inst : Nat) (D : Decoder) (b : Byte), s.decoder? inst = some D → D.st = .escaping →
    (s.params.escPolicy = .literal ∨ (b ≠ s.params.startToken ∧ b ≠ s.params.escapeToken)) →
    let r := append s.params { D with st := .collecting } (b ^^^ s.params.escapeMask)
    Feeds inst r.1 r.2 s (exec (.feedEscData inst b) s) ∧ r.2.length ≤ 1

/-- Where a FEED row stops (the model's choice, log 7 and log 8): on an instance that does not exist, in a state the row is
not for, and on a byte of another row. -/
def Obligations.RowOfAnotherStateFaults : Prop :=
  (∀ (s : State) (inst : Nat) (b : Byte) (i : Instr) (row : St),
    (i, row) ∈ [(Instr.feedIdleStart inst, St.idle), (.feedIdleOther inst b, .idle), (.feedCollStart inst, .collecting),
      (.feedCollEscape inst, .collecting), (.feedCollData inst b, .collecting), (.feedEscStart inst, .escaping),
      (.feedEscEscape inst, .escaping), (.feedEscData inst b, .escaping)] →
    (s.decoder? inst = none → exec i s = .fault .noDecoder) ∧
    (∀ D, s.decoder? inst = some D → D.st ≠ row → exec i s = .fault .rowMismatch)) ∧
  (∀ (s : State) (inst : Nat) (b : Byte) (D : Decoder), s.decoder? inst = some D →
    (b = s.params.startToken → exec (.feedIdleOther inst b) s = .fault .rowMismatch) ∧
    (s.params.IsToken b → exec (.feedCollData inst b) s = .fault .rowMismatch) ∧
    (s.params.escPolicy = .tokenFirst → s.params.IsToken b →
      exec (.feedEscData inst b) s = .fault .rowMismatch))

/-! ### APPEND, the length checks and the validator -/

/-- R88, R89, R90, R92: what an append does, by the length of the buffer. The one case left out, the byte that completes a
frame, is the next statement's. -/
def Obligations.AppendRunsTheLengthChecks : Prop :=
  ∀ (P : Params) (D : Decoder) (v : Byte),
    (D.buf.length < 3 → append P D v = ({ D with buf := D.buf ++ [v] }, [])) ∧
    (∀ o₀ o₁ lo, D.buf = [o₀, o₁, lo] →
      append P D v =
        if P.maxPayload < lo.toNat + 256 * v.toNat then ({ st := .idle, buf := [], expLen := 0 }, [.noise .overflow])
        else ({ D with buf := [o₀, o₁, lo, v], expLen := BitVec.ofNat 16 (lo.toNat + 256 * v.toNat) }, [])) ∧
    (4 ≤ D.buf.length → D.buf.length + 1 < 6 + D.expLen.toNat →
      append P D v = ({ D with buf := D.buf ++ [v] }, [])) ∧
    (4 ≤ D.buf.length → 6 + D.expLen.toNat < D.buf.length + 1 →
      append P D v = ({ st := .idle, buf := [], expLen := 0 }, [.noise .overflow]))

/-- R91, R93: the byte that makes the frame structurally complete runs the CRC validator; the decoder is reset whatever
its outcome. -/
def Obligations.CompletingByteValidatesAndResets : Prop :=
  ∀ (P : Params) (D : Decoder) (o₀ o₁ l₀ l₁ c₀ c₁ : Byte) (p : List Byte),
    D.buf = [o₀, o₁, l₀, l₁] ++ p ++ [c₀] → D.expLen.toNat = p.length →
    append P D c₁ =
      ({ st := .idle, buf := [], expLen := 0 },
       [if crc16 P ([o₀, o₁, l₀, l₁] ++ p) = BitVec.ofNat 16 (c₀.toNat + 256 * c₁.toNat)
        then .frame (BitVec.ofNat 16 (o₀.toNat + 256 * o₁.toNat)) p else .noise .crcMismatch])

/-- R37 with R13: LE16 and bytesLE16 are little-endian and inverse to each other. -/
def Obligations.FieldsAreLittleEndian : Prop :=
  (∀ lo hi : Byte, (le16 lo hi).toNat = lo.toNat + 256 * hi.toNat) ∧
  (∀ v : U16, bytesLE16 v = [BitVec.ofNat 8 v.toNat, BitVec.ofNat 8 (v.toNat / 256)]) ∧
  (∀ lo hi : Byte, bytesLE16 (le16 lo hi) = [lo, hi]) ∧
  (∀ v : U16, ∃ lo hi, bytesLE16 v = [lo, hi] ∧ le16 lo hi = v)

/-- R104: a frame that is not complete emits nothing. Bytes with no START_TOKEN and no double escape among them, escape pairs
and a pending prefix too, fed to an active decoder whether or not its header is complete, are un-escaped and appended;
while what is collected is shorter than its own length field asks for, and that is within the bound, no event comes and
the decoder waits. -/
def Obligations.IncompleteFrameEmitsNothing : Prop :=
  ∀ (P : Params) (D : Decoder) (bs vs : List Byte) (pending : Bool), D.Good P →
    D.st = .collecting ∨ D.st = .escaping →
    unstuff P (D.st = .escaping) bs = some (vs, pending) →
    let buf := D.buf ++ vs
    (4 ≤ buf.length → (lengthField buf).toNat ≤ P.maxPayload ∧ buf.length < 6 + (lengthField buf).toNat) →
    Decoder.feedChunk P D bs = some
      ({ st := if pending then .escaping else .collecting, buf := buf,
         expLen := if buf.length < 4 then 0 else lengthField buf }, [])

/-! ### The whole step and chunks -/

/-- R95: what the machine does with a fed byte, through the dispatch word, the opcode table's row and its meaning, is the
one listing; on state code 3 it faults (R18). -/
def Obligations.FeedStepIsTheListing : Prop :=
  ∀ (s : State) (inst : Nat) (D : Decoder) (b : Byte) (rest : List Input),
    s.inputs = .op (.ofFeed inst .owner b) :: rest → s.decoder? inst = some D →
    match Decoder.feed s.params D b with
    | some r => Feeds inst r.1 r.2 { s with inputs := rest } (step s)
    | none => D.st = .reserved ∧ step s = .fault .reservedState

/-- R96: a chunk is the steps of its bytes in order, its events theirs joined; an empty chunk changes nothing. -/
def Obligations.ChunkIsItsBytesInOrder : Prop :=
  ∀ (s : State) (inst : Nat) (D D' : Decoder) (bs : List Byte) (es : List Event) (rest : List Input),
    s.inputs = .chunk inst .owner bs :: rest → s.decoder? inst = some D →
    Decoder.feedChunk s.params D bs = some (D', es) →
    (bs ≠ [] → Feeds inst D' es { s with inputs := rest } (run bs.length s)) ∧
    (bs = [] → step s = .next { s with inputs := rest })

/-- R42, R98: where a stream is cut into chunks cannot be observed: the machine ends alike, faults included. -/
def Obligations.ChunkingCannotBeObserved : Prop :=
  ∀ (s : State) (inst : Nat) (x y : List Byte) (rest : List Input), x ≠ [] → y ≠ [] →
    run (x.length + y.length)
        { s with inputs := .chunk inst .owner x :: .chunk inst .owner y :: rest } =
      run (x.length + y.length) { s with inputs := .chunk inst .owner (x ++ y) :: rest }

/-- R126, with R81: a decoder in IDLE discards everything up to the next START_TOKEN and reports none of it. -/
def Obligations.IdleDiscardsUntilAStartToken : Prop :=
  ∀ (P : Params) (D : Decoder) (bs : List Byte), D.st = .idle → P.startToken ∉ bs →
    Decoder.feedChunk P D bs = some (D, [])

/-- R123: a START_TOKEN puts any decoder into a fresh COLLECTING, at the cost of one noise when it was active. -/
def Obligations.StartTokenReopensAnyDecoder : Prop :=
  ∀ (s : State) (inst : Nat) (D : Decoder) (rest : List Input),
    s.inputs = .op (.ofFeed inst .owner s.params.startToken) :: rest → s.decoder? inst = some D → D.st ≠ .reserved →
    s.params.escPolicy = .tokenFirst →
    Feeds inst { st := .collecting, buf := [], expLen := 0 }
      (if D.st = .idle then [] else [.noise .multipleStartTokens]) { s with inputs := rest } (step s)

/-! ### The encoder -/

/-- R74, R75: ENCODE hands out the frame's wire bytes, or PayloadTooLarge exactly when the payload is longer than 65535;
it changes nothing else. -/
def Obligations.EncodeSerializesOneFrame : Prop :=
  ∀ (s : State) (opcode : U16) (payload : List Byte),
    let P := s.params
    let u := [BitVec.ofNat 8 opcode.toNat, BitVec.ofNat 8 (opcode.toNat / 256),
      BitVec.ofNat 8 payload.length, BitVec.ofNat 8 (payload.length / 256)] ++ payload
    let c := crc16 P u
    let frame := u ++ [BitVec.ofNat 8 c.toNat, BitVec.ofNat 8 (c.toNat / 256)]
    exec (.encode opcode payload) s = .next { s with outputs := s.outputs ++
      [.encoded (if 65535 < payload.length then .payloadTooLarge
        else .ok ([P.startToken] ++ frame.flatMap (fun x =>
          if P.IsToken x then [P.escapeToken, x ^^^ P.escapeMask] else [x])))] }

/-- R73: STUFF, and its corner cases: the length, no START_TOKEN, and every ESCAPE_TOKEN the first byte of a pair.
The clause on tokens in the output is one R73 marks as derived from R11. -/
def Obligations.StuffReplacesTokenBytes : Prop :=
  ∀ (s : State) (bs : List Byte),
    let P := s.params
    let out := bs.flatMap (fun x => if P.IsToken x then [P.escapeToken, x ^^^ P.escapeMask] else [x])
    exec (.stuff bs) s = .next { s with outputs := s.outputs ++ [.stuffed out] } ∧
    out.length = bs.length + bs.countP (fun x => P.IsToken x) ∧
    (P.Legal → P.startToken ∉ out ∧
      ∀ k, out[k]? = some P.escapeToken → ∃ y, out[k + 1]? = some y ∧ ¬ P.IsToken y)

/-- R77, R59: the length of a frame's wire bytes, and where START_TOKEN stands in them. -/
def Obligations.WireBytesLengthAndStartToken : Prop :=
  ∀ (P : Params) (opcode : U16) (payload w : List Byte), P.Legal → encodeFrame P opcode payload = .ok w →
    w.length = 7 + payload.length + (unescapedFrame P opcode payload).countP (fun x => P.IsToken x) ∧
    7 + payload.length ≤ w.length ∧ w.length ≤ 1 + 2 * (6 + payload.length) ∧
    w.head? = some P.startToken ∧ P.startToken ∉ w.tail

/-- R76: the encoder's bound is not the decoder's: a frame longer than MAX_PAYLOAD is encoded, and a decoder reports it
as Overflow, once. -/
def Obligations.EncoderBoundIsNotTheDecoders : Prop :=
  ∀ (P : Params) (opcode : U16) (payload : List Byte) (D : Decoder), P.Legal → P.maxPayload < payload.length →
    payload.length ≤ 65535 → D.st = .idle →
    ∃ w, encodeFrame P opcode payload = .ok w ∧
      Decoder.feedChunk P D w = some ({ st := .idle, buf := [], expLen := 0 }, [.noise .overflow])

/-! ### CRC16 -/

/-- R68: CRC16 is the bit-serial function, under any CRC parameters, and is total; it changes nothing else. -/
def Obligations.CrcIsTheBitSerialFunction : Prop :=
  ∀ (s : State) (data : List Byte),
    let P := s.params
    let bit : U16 → U16 := fun c => if c / 0x8000 = 1 then (c + c) ^^^ P.crcPoly else c + c
    let byte : U16 → Byte → U16 := fun c x =>
      bit^[8] (c ^^^ ((if P.crcRefin then x.reverse else x).zeroExtend 16 <<< 8))
    let c := data.foldl byte P.crcInit
    exec (.crc16 data) s = .next { s with outputs := s.outputs ++
      [.crc ((if P.crcRefout then c.reverse else c) ^^^ P.crcXorout)] }

/-- R71: a CRC computed as the bytes arrive is bit-identical to the CRC of the whole. -/
def Obligations.RunningCrcIsTheWholeCrc : Prop :=
  ∀ (P : Params) (xs ys : List Byte),
    crc16 P (xs ++ ys) = crcFinish P (ys.foldl (crcByte P) (xs.foldl (crcByte P) P.crcInit))

/-- R72: changing the value of one byte, by one bit or by more, always changes the CRC, for every polynomial with its
lowest bit set, 0x1021 among them. -/
def Obligations.ChangedByteChangesTheCrc : Prop :=
  ∀ (P : Params) (xs ys : List Byte) (x y : Byte), P.crcPoly.getLsbD 0 = true → x ≠ y →
    crc16 P (xs ++ x :: ys) ≠ crc16 P (xs ++ y :: ys)

/-! ### Encoder and decoder together -/

/-- R99: a decoder fed the wire bytes of a frame emits exactly that frame, at the last byte, and ends in IDLE; an active
one emits one MultipleStartTokens first, under TOKEN_FIRST. -/
def Obligations.EncodedFrameDecodesToItself : Prop :=
  ∀ (P : Params) (opcode : U16) (payload w : List Byte) (D : Decoder), P.Legal →
    payload.length ≤ P.maxPayload → encodeFrame P opcode payload = .ok w →
    (D.st = .idle ∨ (P.escPolicy = .tokenFirst ∧ (D.st = .collecting ∨ D.st = .escaping))) →
    let before : List Event := if D.st = .idle then [] else [.noise .multipleStartTokens]
    Decoder.feedChunk P D w =
      some ({ st := .idle, buf := [], expLen := 0 }, before ++ [.frame opcode payload]) ∧
    ∃ D', Decoder.feedChunk P D w.dropLast = some (D', before)

/-- R99 on the machine, with R66's SEND: from any state with a decoder in IDLE, the statement SEND runs to a state in which
the result and then the one frame were handed out, the decoder is fresh again and every other instance is as it was.
The order of the two outputs is the model's record (log 5), the inputs of a statement the model's (log 13). -/
def Obligations.SendDeliversTheFrame : Prop :=
  ∀ (s : State) (d : Nat) (D : Decoder) (opcode : U16) (payload : List Byte) (ins rest : List Input),
    s.params.Legal → payload.length ≤ s.params.maxPayload → s.decoder? d = some D → D.st = .idle →
    programInputs s.params [] [.send d opcode payload] = some ins → s.inputs = ins ++ rest →
    ∃ w, encodeFrame s.params opcode payload = .ok w ∧
      ∃ t, run (1 + w.length) s = .next t ∧
        t.decoder? d = some { st := .idle, buf := [], expLen := 0 } ∧ State.OthersSame d s t ∧
        t.params = s.params ∧ t.inputs = rest ∧ t.outputs = s.outputs ++ [.encoded (.ok w), .event d (.frame opcode payload)]

/-- R66 and R75: a SEND whose payload is too large asks for the ENCODE alone, so no decoder takes a step.
The inputs of a statement are the model's (log 13). -/
def Obligations.OversizeSendFeedsNothing : Prop :=
  ∀ (P : Params) (ns : Names) (d : Nat) (opcode : U16) (payload : List Byte), 65535 < payload.length →
    programInputs P ns [.send d opcode payload] = some [.op (.ofEncode opcode payload)]

/-- R100: after garbage with no START_TOKEN, from any decoder state, a frame is decoded, at most one event comes before it,
and that event is either the garbage's own (never MultipleStartTokens, and it leaves the decoder in IDLE) or the one
MultipleStartTokens of the frame's start token. -/
def Obligations.FrameAfterGarbageResynchronizes : Prop :=
  ∀ (P : Params) (opcode : U16) (payload w garbage : List Byte) (D : Decoder), P.Legal → P.escPolicy = .tokenFirst →
    payload.length ≤ P.maxPayload → encodeFrame P opcode payload = .ok w → D.st ≠ .reserved →
    P.startToken ∉ garbage →
    ∃ (D₁ : Decoder) (es : List Event), Decoder.feedChunk P D garbage = some (D₁, es) ∧
      es.length ≤ 1 ∧ .noise .multipleStartTokens ∉ es ∧ (es ≠ [] → D₁ = { st := .idle, buf := [], expLen := 0 }) ∧
      Decoder.feedChunk P D (garbage ++ w) =
        some ({ st := .idle, buf := [], expLen := 0 },
          es ++ (if D₁.st = .idle then [] else [.noise .multipleStartTokens]) ++ [.frame opcode payload])

/-- R102: change one wire byte of a frame after the start token, by one bit or by more, when neither the old nor the new
value is a token and the byte is not of the length field: exactly one CrcMismatch, at the last byte, and no frame. -/
def Obligations.ChangedWireByteGivesOneCrcMismatch : Prop :=
  ∀ (P : Params) (opcode : U16) (payload w : List Byte) (D : Decoder) (k : Nat) (x y : Byte), P.Legal →
    P.crcPoly.getLsbD 0 = true → payload.length ≤ P.maxPayload → encodeFrame P opcode payload = .ok w →
    D.st = .idle → 1 ≤ k → w[k]? = some x → x ≠ y → ¬ P.IsToken x → ¬ P.IsToken y →
    (k < 1 + (stuff P ((unescapedFrame P opcode payload).take 2)).length ∨
      1 + (stuff P ((unescapedFrame P opcode payload).take 4)).length ≤ k) →
    Decoder.feedChunk P D (w.set k y) = some ({ st := .idle, buf := [], expLen := 0 }, [.noise .crcMismatch]) ∧
    ∃ D', Decoder.feedChunk P D (w.set k y).dropLast = some (D', [])

/-! ### Events -/

/-- R101: after a MultipleStartTokens the decoder is fresh and COLLECTING, after any other event it is as NEW makes it;
for every operation and every state. -/
def Obligations.DecoderAfterAnEvent : Prop :=
  ∀ (i : Instr) (s t : State), exec i s = .next t →
    ∃ os, t.outputs = s.outputs ++ os ∧ ∀ inst e, Output.event inst e ∈ os →
      t.decoder? inst = some
        (if e = .noise .multipleStartTokens then { st := .collecting, buf := [], expLen := 0 }
         else { st := .idle, buf := [], expLen := 0 })

/-- R110, R49: a step hands out at most one output and never changes one handed out before; a chunk of k bytes emits at most
k events. -/
def Obligations.AtMostOneEventPerByte : Prop :=
  (∀ s t : State, step s = .next t → ∃ os, t.outputs = s.outputs ++ os ∧ os.length ≤ 1) ∧
  (∀ (P : Params) (D D' : Decoder) (bs : List Byte) (es : List Event),
    Decoder.feedChunk P D bs = some (D', es) → es.length ≤ bs.length)

/-- R103: in a good state, Overflow comes from the header's bound alone, and with this hardware's MAX_PAYLOAD never. -/
def Obligations.OverflowComesFromTheBoundAlone : Prop :=
  ∀ (P : Params) (D D' : Decoder) (b : Byte) (es : List Event), D.Good P →
    Decoder.feed P D b = some (D', es) →
    (.noise .overflow ∈ es → D.buf.length = 3 ∧
      P.maxPayload < (lengthField (D.buf ++ [if D.st = .escaping then b ^^^ P.escapeMask else b])).toNat) ∧
    (P.maxPayload = 65535 → .noise .overflow ∉ es)

/-- R106, D8: the numeric codes of the noise reasons. -/
def Obligations.NoiseReasonCodes : Prop :=
  NoiseReason.code .multipleStartTokens = 0 ∧ NoiseReason.code .doubleEscape = 1 ∧
  NoiseReason.code .overflow = 2 ∧ NoiseReason.code .crcMismatch = 3 ∧
  ∀ r : NoiseReason, r = .multipleStartTokens ∨ r = .doubleEscape ∨ r = .overflow ∨ r = .crcMismatch

/-! ### Invariants and whole-machine rules -/

/-- R22: every step keeps R22's invariant for every instance, with legal parameters and the table's canonical form.
The table's form is the model's (log 2). -/
def Obligations.StepKeepsTheStateGood : Prop :=
  ∀ s t : State, s.Good → step s = .next t → t.Good

/-- The invariant holds after reset.
That there is one instance is the model's choice (log 3). -/
def Obligations.ResetStateIsGood : Prop := State.reset.Good

/-- R20, R36, R94: a good decoder's buffer stays below its capacity, and the completion limit never wraps. -/
def Obligations.BufferStaysBelowCapacity : Prop :=
  (∀ (P : Params) (D : Decoder), D.Good P → D.buf.length ≤ P.bufCap - 1) ∧
  (∀ e : U16, completionLimit e = 6 + e.toNat) ∧ Params.hardware.bufCap - 1 = 65540

/-- R28: no step writes the parameters. -/
def Obligations.ParametersAreNeverWritten : Prop :=
  ∀ s t : State, step s = .next t → t.params = s.params

/-- R32, R23: an operation leaves every instance but its own, the parameters and what is asked for as they are; ENCODE and
the internal functions leave every instance. -/
def Obligations.OperationsLeaveOtherInstances : Prop :=
  ∀ (i : Instr) (s t : State), exec i s = .next t →
    (∀ n, i.target ≠ some n → t.decoder? n = s.decoder? n) ∧ t.params = s.params ∧ t.inputs = s.inputs

/-- R31: what an operation does and emits depends on its own instance and the parameters alone: states that agree on those
give the same outputs and the same new decoder, whatever else differs. -/
def Obligations.OutcomeDependsOnTheInstanceAlone : Prop :=
  ∀ (i : Instr) (s₁ s₂ t₁ : State), s₁.params = s₂.params →
    (∀ n, i.target = some n → s₁.decoder? n = s₂.decoder? n) → exec i s₁ = .next t₁ →
    ∃ t₂ os, exec i s₂ = .next t₂ ∧ t₁.outputs = s₁.outputs ++ os ∧ t₂.outputs = s₂.outputs ++ os ∧
      ∀ n, i.target = some n → t₂.decoder? n = t₁.decoder? n

/-! ### Decoding and the step -/

/-- Decode after encode, for every well-formed operation that has a word.
That an instance is named by a number is the model's choice (log 2). -/
def Obligations.DecodeOfEncodeIsTheOperation : Prop :=
  ∀ (P : Params) (i : Instr) (d : DispatchWord) (a : Args), P.startToken ≠ P.escapeToken → i.wf P = true →
    encode P i = some (d, a) → decode P d a = .ok i

/-- Encode after decode: what a word decodes to is well formed and has a word that decodes to it, the same one for a
FEED. -/
def Obligations.EncodeOfDecodeIsTheWord : Prop :=
  ∀ (P : Params) (d : DispatchWord) (a : Args) (i : Instr), decode P d a = .ok i →
    i.wf P = true ∧ ∃ d' a', encode P i = some (d', a') ∧ decode P d' a' = .ok i ∧
      (d.extractLsb' 10 2 = Sel.feed → d' = d)

/-- R51, R53: the decoder gives what the opcode table's rows give, of which the one with the most mask bits set wins. -/
def Obligations.DecoderFollowsTheOpcodeTable : Prop :=
  ∀ (P : Params) (d : DispatchWord) (a : Args) (i : Instr), P.startToken ≠ P.escapeToken →
    (decode P d a = .ok i ↔ tableDecode P d a = some i)

/-- R53's table under TOKEN_FIRST, row by row. -/
def Obligations.FeedRowsByStateAndByte : Prop :=
  ∀ (P : Params) (a : Args) (b : Byte), P.startToken ≠ P.escapeToken → P.escPolicy = .tokenFirst →
    decode P (feedWord 0 P.startToken) a = .ok (.feedIdleStart a.inst) ∧
    (b ≠ P.startToken → decode P (feedWord 0 b) a = .ok (.feedIdleOther a.inst b)) ∧
    decode P (feedWord 1 P.startToken) a = .ok (.feedCollStart a.inst) ∧
    decode P (feedWord 1 P.escapeToken) a = .ok (.feedCollEscape a.inst) ∧
    (¬ P.IsToken b → decode P (feedWord 1 b) a = .ok (.feedCollData a.inst b)) ∧
    decode P (feedWord 2 P.startToken) a = .ok (.feedEscStart a.inst) ∧
    decode P (feedWord 2 P.escapeToken) a = .ok (.feedEscEscape a.inst) ∧
    (¬ P.IsToken b → decode P (feedWord 2 b) a = .ok (.feedEscData a.inst b))

/-- R55: under LITERAL every word with state code 2 selects FEED.ESC.DATA. -/
def Obligations.LiteralPolicyHasOneEscapingRow : Prop :=
  ∀ (P : Params) (d : DispatchWord) (a : Args), P.escPolicy = .literal → d.extractLsb' 10 2 = 1 →
    d.extractLsb' 8 2 = 2 → decode P d a = .ok (.feedEscData a.inst (d.extractLsb' 0 8))

/-- R54: a word with state code 3 matches no row, and a model that meets one faults. -/
def Obligations.ReservedStateCodeFaults : Prop :=
  (∀ (P : Params) (d : DispatchWord) (a : Args),
    decode P d a = .error .reservedState ↔ (d.extractLsb' 10 2 = 1 ∧ d.extractLsb' 8 2 = 3)) ∧
  (∀ (P : Params) (d : DispatchWord) (a : Args), d.extractLsb' 10 2 = 1 → d.extractLsb' 8 2 = 3 →
    tableDecode P d a = none) ∧
  (∀ (s : State) (inst : Nat) (D : Decoder) (b : Byte) (rest : List Input),
    s.inputs = .op (.ofFeed inst .owner b) :: rest → s.decoder? inst = some D → D.st = .reserved →
    step s = .fault .reservedState)

/-- R51: selector 3 is refused, and it alone. -/
def Obligations.ReservedSelectorIsRefused : Prop :=
  (∀ (P : Params) (d : DispatchWord) (a : Args),
    decode P d a = .error .reservedSelector ↔ d.extractLsb' 10 2 = 3) ∧
  (∀ (s : State) (r : Request) (rest : List Input), s.inputs = .op r :: rest → r.sel = 3 →
    step s = .refused .reservedSelector)

/-- A few words of the opcode table, under this hardware's parameters.
That the arguments are zero is the model's choice (log 10). -/
def Obligations.OpcodeTableWordsDecode : Prop :=
  decodeTableWord 16 0x000 = some (.new 0) ∧ decodeTableWord 16 0x47E = some (.feedIdleStart 0) ∧
  decodeTableWord 16 0x47D = some (.feedIdleOther 0 0x7D) ∧ decodeTableWord 16 0x57E = some (.feedCollStart 0) ∧
  decodeTableWord 16 0x57D = some (.feedCollEscape 0) ∧ decodeTableWord 16 0x55E = some (.feedCollData 0 0x5E) ∧
  decodeTableWord 16 0x67E = some (.feedEscStart 0) ∧ decodeTableWord 16 0x67D = some (.feedEscEscape 0) ∧
  decodeTableWord 16 0x65E = some (.feedEscData 0 0x5E) ∧ decodeTableWord 16 0x800 = some (.encode 0 []) ∧
  decodeTableWord 16 0xC00 = none ∧ decodeTableWord 16 0x700 = none

/-- A step runs the decoded operation: when an operation is asked for next and its word decodes to `i`, the step is exec of
`i` in the state with the request taken; a byte of a chunk is the FEED of that byte with the rest of the chunk left.
How what is asked for is held is the model's choice (log 4). -/
def Obligations.StepRunsTheDecodedOperation : Prop :=
  (∀ (s : State) (r : Request) (rest : List Input) (d : DispatchWord) (i : Instr),
    s.inputs = .op r :: rest → r.word s = .ok d → decode s.params d r.args = .ok i →
    step s = exec i { s with inputs := rest }) ∧
  (∀ (s : State) (inst : Nat) (b : Byte) (bs : List Byte) (rest : List Input) (D : Decoder) (i : Instr),
    s.inputs = .chunk inst .owner (b :: bs) :: rest → s.decoder? inst = some D →
    decode s.params (feedWord D.st.code b) (Args.ofInst inst) = .ok i →
    step s = exec i { s with inputs := if bs = [] then rest else .chunk inst .owner bs :: rest })

/-- R120: with nothing asked for, nothing changes.
That there is such a step is the model's (log 14). -/
def Obligations.NothingAskedForNothingChanges : Prop :=
  ∀ s : State, s.inputs = [] → step s = .next s

/-- R127, R128: a feed that overlaps another agent's, and one from inside an event's handling, are faults, whatever the
instance and the bytes.
How a feed is marked is the model's choice (log 6). -/
def Obligations.OverlappingAndReentrantFeedsFault : Prop :=
  ∀ (s : State) (inst : Nat) (b : Byte) (bs : List Byte) (rest : List Input),
    (s.inputs = .op (.ofFeed inst .overlap b) :: rest → step s = .fault .concurrentFeed) ∧
    (s.inputs = .chunk inst .overlap bs :: rest → step s = .fault .concurrentFeed) ∧
    (s.inputs = .op (.ofFeed inst .handler b) :: rest → step s = .fault .reentrantFeed) ∧
    (s.inputs = .chunk inst .handler bs :: rest → step s = .fault .reentrantFeed)

/-- R124: a dropped decoder is gone and emitted nothing for its partial frame; every other instance is as it was, and from
then on a feed of it, of a byte, of a chunk or of an empty chunk, is a fault (ID16), and so is another drop. That a drop is
asked for as an input is the model's choice (log 4), the fault of an empty chunk and of a second drop too (log 7). -/
def Obligations.DropLosesThePartialFrameSilently : Prop :=
  ∀ (s : State) (inst : Nat) (D : Decoder) (rest : List Input), s.Good → s.inputs = .drop inst :: rest →
    s.decoder? inst = some D →
    ∃ t, step s = .next t ∧ t.decoder? inst = none ∧ State.OthersSame inst s t ∧ t.outputs = s.outputs ∧
      t.params = s.params ∧ t.inputs = rest ∧
      (∀ b more, step { t with inputs := .op (.ofFeed inst .owner b) :: more } = .fault .noDecoder) ∧
      (∀ bs more, step { t with inputs := .chunk inst .owner bs :: more } = .fault .noDecoder) ∧
      (∀ more, step { t with inputs := .drop inst :: more } = .fault .noDecoder)

/-! ### Programs -/

/-- R66: NEW and FEED after any program that ended. NEW gives its decoder the reset state and adds no event list; a FEED
adds exactly its own, which is R96's, an empty one too, and leaves its decoder as R96 says. FEED of a name is FEED of the
byte sequence it holds. The empty program ends where it starts. What a FEED of a name that holds none, and of a decoder
that does not exist, comes to is the model's choice (log 13, log 7). -/
def Obligations.ProgramFeedsInOrder : Prop :=
  (∀ r : ProgramRun, runProgram [] r = .ended r) ∧
  ∀ (prog : List Stmt) (r₀ r : ProgramRun), runProgram prog r₀ = .ended r →
    (∀ d, ∃ r', runProgram (prog ++ [.new d]) r₀ = .ended r' ∧
      r.Continues d { st := .idle, buf := [], expLen := 0 } [] r' ∧ r'.names = r.names) ∧
    (∀ d bs D D' es, r.state.decoder? d = some D → Decoder.feedChunk r.state.params D bs = some (D', es) →
      ∃ r', runProgram (prog ++ [.feed d bs]) r₀ = .ended r' ∧ r.Continues d D' [es] r' ∧ r'.names = r.names) ∧
    (∀ d t w, r.names.bytes t = some w →
      runProgram (prog ++ [.feedName d t]) r₀ = runProgram (prog ++ [.feed d w]) r₀) ∧
    (∀ d t, r.names.bytes t = none → runProgram (prog ++ [.feedName d t]) r₀ = .unbound) ∧
    (∀ d bs, r.state.decoder? d = none → runProgram (prog ++ [.feed d bs]) r₀ = .fault .noDecoder)

/-- R66: ENCODE and SEND after any program that ended. ENCODE binds its name to its result and no decoder takes a step. SEND
is one FEED of the wire bytes on Ok, with its event list; on Err no decoder takes a step and there is no event list. -/
def Obligations.ProgramEncodesAndSends : Prop :=
  ∀ (prog : List Stmt) (r₀ r : ProgramRun), runProgram prog r₀ = .ended r →
    (∀ t opcode payload, ∃ r', runProgram (prog ++ [.encode t opcode payload]) r₀ = .ended r' ∧
      r'.state.decoders = r.state.decoders ∧ r'.feeds = r.feeds ∧ r'.named = r.named ∧
      (∀ w, encodeFrame r.state.params opcode payload = .ok w → r'.names.bytes t = some w) ∧
      (65535 < payload.length → r'.names.bytes t = none) ∧ ∀ t', t' ≠ t → r'.names.bytes t' = r.names.bytes t') ∧
    (∀ d opcode payload w D D' es, encodeFrame r.state.params opcode payload = .ok w → r.state.decoder? d = some D →
      Decoder.feedChunk r.state.params D w = some (D', es) →
      ∃ r', runProgram (prog ++ [.send d opcode payload]) r₀ = .ended r' ∧ r.Continues d D' [es] r' ∧
        r'.names = r.names) ∧
    (∀ d opcode payload, 65535 < payload.length →
      ∃ r', runProgram (prog ++ [.send d opcode payload]) r₀ = .ended r' ∧
        r'.state.decoders = r.state.decoders ∧ r'.feeds = r.feeds ∧ r'.names = r.names)

/-- R66: the end state of a program is the state of every decoder it names and the event list of every FEED, in order; and
the decoders it names are those of its statements, each once. -/
def Obligations.ProgramEndIsDecodersAndEventLists : Prop :=
  ∀ (prog : List Stmt) (s : State) (r : ProgramRun), runProgram prog (ProgramRun.start s) = .ended r →
    ∃ e, programEnd prog s = some e ∧ e.feeds = r.feeds ∧
      (∀ d D, (d, D) ∈ e.decoders ↔ (∃ st ∈ prog, st.decoderName = some d) ∧ r.state.decoder? d = some D) ∧
      (e.decoders.map Prod.fst).Nodup
end

