-- ==== Sys2Proof/Laws/State.lean ====
section
/-! SUPPORT. One lemma per field of State and per update of it, so that no later proof unfolds a record update. -/

namespace Sys2Proof.Machine

variable (s : State) (inst : Nat) (D : Decoder) (o : Output) (es : List Event)

@[simp] theorem State.setDecoder_params : (s.setDecoder inst D).params = s.params := rfl
@[simp] theorem State.setDecoder_inputs : (s.setDecoder inst D).inputs = s.inputs := rfl
@[simp] theorem State.setDecoder_outputs : (s.setDecoder inst D).outputs = s.outputs := rfl
@[simp] theorem State.setDecoder_decoders :
    (s.setDecoder inst D).decoders = Table.set s.decoders inst D := rfl

@[simp] theorem State.eraseDecoder_params : (s.eraseDecoder inst).params = s.params := rfl
@[simp] theorem State.eraseDecoder_inputs : (s.eraseDecoder inst).inputs = s.inputs := rfl
@[simp] theorem State.eraseDecoder_outputs : (s.eraseDecoder inst).outputs = s.outputs := rfl
@[simp] theorem State.eraseDecoder_decoders :
    (s.eraseDecoder inst).decoders = Table.erase s.decoders inst := rfl

@[simp] theorem State.putOut_params : (s.putOut o).params = s.params := rfl
@[simp] theorem State.putOut_inputs : (s.putOut o).inputs = s.inputs := rfl
@[simp] theorem State.putOut_outputs : (s.putOut o).outputs = s.outputs ++ [o] := rfl
@[simp] theorem State.putOut_decoders : (s.putOut o).decoders = s.decoders := rfl
@[simp] theorem State.putOut_decoder? : (s.putOut o).decoder? inst = s.decoder? inst := rfl

@[simp] theorem State.emit_params : (s.emit inst es).params = s.params := rfl
@[simp] theorem State.emit_inputs : (s.emit inst es).inputs = s.inputs := rfl
@[simp] theorem State.emit_outputs :
    (s.emit inst es).outputs = s.outputs ++ es.map (Output.event inst) := rfl
@[simp] theorem State.emit_decoders : (s.emit inst es).decoders = s.decoders := rfl
@[simp] theorem State.emit_decoder? (n : Nat) : (s.emit inst es).decoder? n = s.decoder? n := rfl

@[simp] theorem State.emit_nil : s.emit inst [] = s := by simp [State.emit]

/-- Consuming what is asked for leaves every instance as it is. -/
@[simp] theorem State.decoder?_withInputs (ins : List Input) :
    State.decoder? { s with inputs := ins } inst = s.decoder? inst := rfl

end Sys2Proof.Machine
end

