-- ==== Sys2Proof/Laws/Table.lean ====
section
/-! SUPPORT. The instance table: read after write, what a write leaves alone, and that every operation keeps the canonical
form. -/

namespace Sys2Proof.Machine

@[simp] theorem Table.find_set_same (t : List (Nat × Decoder)) (n : Nat) (D : Decoder) :
    Table.find (Table.set t n D) n = some D := by
  induction t with
  | nil => simp [Table.set, Table.find]
  | cons c t ih =>
    obtain ⟨k, E⟩ := c
    by_cases h₁ : n < k
    · simp [Table.set, Table.find, h₁]
    · by_cases h₂ : n = k
      · simp [Table.set, Table.find, h₂]
      · simp [Table.set, Table.find, h₁, h₂, ih]

theorem Table.find_set_ne (t : List (Nat × Decoder)) (n m : Nat) (D : Decoder) (h : m ≠ n) :
    Table.find (Table.set t n D) m = Table.find t m := by
  induction t with
  | nil => simp [Table.set, Table.find, h]
  | cons c t ih =>
    obtain ⟨k, E⟩ := c
    by_cases h₁ : n < k
    · simp [Table.set, Table.find, h₁, h]
    · by_cases h₂ : n = k
      · subst h₂; simp [Table.set, Table.find, h]
      · simp [Table.set, Table.find, h₁, h₂, ih]

theorem Table.find_erase_ne (t : List (Nat × Decoder)) (n m : Nat) (h : m ≠ n) :
    Table.find (Table.erase t n) m = Table.find t m := by
  induction t with
  | nil => simp [Table.erase, Table.find]
  | cons c t ih =>
    obtain ⟨k, E⟩ := c
    by_cases h₂ : n = k
    · subst h₂; simp [Table.erase, Table.find, h]
    · simp [Table.erase, Table.find, h₂, ih]

/-- A name below every name of a canonical table stands for nothing. -/
theorem Table.find_none_of_lt (t : List (Nat × Decoder)) (n : Nat) (h : ∀ m ∈ t.map Prod.fst, n < m) :
    Table.find t n = none := by
  induction t with
  | nil => rfl
  | cons c t ih =>
    obtain ⟨k, E⟩ := c
    have hk : n < k := h k (by simp)
    have hne : n ≠ k := by omega
    simp only [Table.find, hne, if_false]
    exact ih fun m hm => h m (by simp only [List.map_cons, List.mem_cons]; exact .inr hm)

theorem Table.find_erase_same (t : List (Nat × Decoder)) (n : Nat) (h : Table.wf t) :
    Table.find (Table.erase t n) n = none := by
  induction t with
  | nil => rfl
  | cons c t ih =>
    obtain ⟨k, E⟩ := c
    obtain ⟨h₁, h₂⟩ := List.pairwise_cons.1 h
    by_cases hk : n = k
    · subst hk; simpa [Table.erase] using Table.find_none_of_lt t n h₁
    · simpa [Table.erase, Table.find, hk] using ih h₂

/-- The names of a table after a write: the written one, and those there were. -/
theorem Table.mem_names_set (t : List (Nat × Decoder)) (n : Nat) (D : Decoder) (m : Nat)
    (h : m ∈ (Table.set t n D).map Prod.fst) : m = n ∨ m ∈ t.map Prod.fst := by
  induction t with
  | nil => simpa [Table.set] using h
  | cons c t ih =>
    obtain ⟨k, E⟩ := c
    by_cases h₁ : n < k
    · simpa [Table.set, h₁] using h
    · by_cases h₂ : n = k
      · subst h₂; right; simpa [Table.set] using h
      · simp only [Table.set, h₁, h₂, if_false, List.map_cons, List.mem_cons] at h ⊢
        rcases h with h | h
        · exact .inr (.inl h)
        · rcases ih h with h | h
          · exact .inl h
          · exact .inr (.inr h)

theorem Table.mem_names_erase (t : List (Nat × Decoder)) (n m : Nat)
    (h : m ∈ (Table.erase t n).map Prod.fst) : m ∈ t.map Prod.fst := by
  induction t with
  | nil => simp [Table.erase] at h
  | cons c t ih =>
    obtain ⟨k, E⟩ := c
    by_cases h₂ : n = k
    · subst h₂; simp only [Table.erase, if_true] at h; exact List.mem_cons_of_mem _ h
    · simp only [Table.erase, h₂, if_false, List.map_cons, List.mem_cons] at h ⊢
      rcases h with h | h
      · exact .inl h
      · exact .inr (ih h)

/-- A write keeps the canonical form. -/
theorem Table.wf_set (t : List (Nat × Decoder)) (n : Nat) (D : Decoder) (h : Table.wf t) :
    Table.wf (Table.set t n D) := by
  induction t with
  | nil => simp [Table.set, Table.wf]
  | cons c t ih =>
    obtain ⟨k, E⟩ := c
    obtain ⟨hk, ht⟩ := List.pairwise_cons.1 h
    by_cases h₁ : n < k
    · simp only [Table.set, h₁, if_true, Table.wf, List.map_cons]
      refine List.pairwise_cons.2 ⟨?_, h⟩
      intro m hm
      rcases List.mem_cons.1 hm with rfl | hm
      · exact h₁
      · exact lt_trans h₁ (hk m hm)
    · by_cases h₂ : n = k
      · subst h₂; simpa [Table.set, Table.wf] using h
      · simp only [Table.set, h₁, h₂, if_false, Table.wf, List.map_cons]
        refine List.pairwise_cons.2 ⟨?_, ih ht⟩
        intro m hm
        rcases Table.mem_names_set t n D m hm with rfl | hm
        · show k < m; omega
        · exact hk m hm

/-- Taking a name away keeps the canonical form. -/
theorem Table.wf_erase (t : List (Nat × Decoder)) (n : Nat) (h : Table.wf t) :
    Table.wf (Table.erase t n) := by
  induction t with
  | nil => exact h
  | cons c t ih =>
    obtain ⟨k, E⟩ := c
    obtain ⟨hk, ht⟩ := List.pairwise_cons.1 h
    by_cases h₂ : n = k
    · simpa [Table.erase, h₂] using ht
    · simp only [Table.erase, h₂, if_false, Table.wf, List.map_cons]
      exact List.pairwise_cons.2 ⟨fun m hm => hk m (Table.mem_names_erase t n m hm), ih ht⟩

/-! ### The same, through State -/

@[simp] theorem State.decoder?_setDecoder_same (s : State) (inst : Nat) (D : Decoder) :
    (s.setDecoder inst D).decoder? inst = some D := Table.find_set_same s.decoders inst D

theorem State.decoder?_setDecoder_ne (s : State) (inst n : Nat) (D : Decoder) (h : n ≠ inst) :
    (s.setDecoder inst D).decoder? n = s.decoder? n := Table.find_set_ne s.decoders inst n D h

theorem State.decoder?_eraseDecoder_ne (s : State) (inst n : Nat) (h : n ≠ inst) :
    (s.eraseDecoder inst).decoder? n = s.decoder? n := Table.find_erase_ne s.decoders inst n h

theorem State.decoder?_eraseDecoder_same (s : State) (inst : Nat) (h : Table.wf s.decoders) :
    (s.eraseDecoder inst).decoder? inst = none := Table.find_erase_same s.decoders inst h

end Sys2Proof.Machine
end

