-- ==== Sys2Proof/Laws/Ops.lean ====
section
/-! SUPPORT. For each shared operation, once, everything it can do. -/

namespace Sys2Proof.Machine

/-! ### Byte order -/

theorem le16_toNat (lo hi : Byte) : (le16 lo hi).toNat = lo.toNat + 256 * hi.toNat := by
  have h : (le16 lo hi) = BitVec.setWidth 16 (hi ++ lo) := by
    simp only [le16]
    ext i hi'
    simp only [BitVec.getElem_or, BitVec.getElem_setWidth, BitVec.getElem_shiftLeft, BitVec.getLsbD_append,
      BitVec.getElem_setWidth]
    by_cases h8 : i < 8
    · simp [h8]
    · simp [h8, BitVec.getLsbD_of_ge lo i (by omega)]
  rw [h, BitVec.toNat_setWidth, BitVec.toNat_append, ← Nat.shiftLeft_add_eq_or_of_lt lo.isLt]
  have := lo.isLt; have := hi.isLt
  simp only [Nat.shiftLeft_eq]; omega

theorem bytesLE16_length (v : U16) : (bytesLE16 v).length = 2 := rfl

/-! ### State codes -/

@[simp] theorem St.ofCode_code (st : St) : St.ofCode st.code = st := by cases st <;> rfl

theorem St.code_injective : ∀ a b : St, a.code = b.code → a = b := by
  intro a b; cases a <;> cases b <;> decide

/-! ### One decoder -/

/-- Everything `validate` can answer. -/
theorem validate_cases (P : Params) (D : Decoder) :
    (crc16 P (crcCovered D.buf) = receivedCrc D.buf ∧
      validate P D = (resetIdle, [.frame (opcodeField D.buf) (payloadField D.buf D.expLen)])) ∨
    (crc16 P (crcCovered D.buf) ≠ receivedCrc D.buf ∧ validate P D = (resetIdle, [.noise .crcMismatch])) := by
  by_cases h : crc16 P (crcCovered D.buf) = receivedCrc D.buf
  · exact .inl ⟨h, by simp [validate, h]⟩
  · exact .inr ⟨h, by simp [validate, h, violation]⟩

@[simp] theorem validate_fst (P : Params) (D : Decoder) : (validate P D).1 = resetIdle := by
  rcases validate_cases P D with ⟨-, h⟩ | ⟨-, h⟩ <;> rw [h]

/-- Everything `lengthChecks` can answer. -/
theorem lengthChecks_cases (P : Params) (D : Decoder) :
    (frameComplete D.buf.length D.expLen ∧ lengthChecks P D = validate P D) ∨
    (pastCompletion D.buf.length D.expLen ∧ lengthChecks P D = (resetIdle, [.noise .overflow])) ∨
    (¬ frameComplete D.buf.length D.expLen ∧ ¬ pastCompletion D.buf.length D.expLen ∧ lengthChecks P D = (D, [])) := by
  by_cases h₁ : frameComplete D.buf.length D.expLen
  · exact .inl ⟨h₁, if_pos h₁⟩
  · by_cases h₂ : pastCompletion D.buf.length D.expLen
    · exact .inr (.inl ⟨h₂, by rw [lengthChecks, if_neg h₁, if_pos h₂]; rfl⟩)
    · exact .inr (.inr ⟨h₁, h₂, by rw [lengthChecks, if_neg h₁, if_neg h₂]⟩)

/-- Everything `append` can answer. -/
theorem append_cases (P : Params) (D : Decoder) (v : Byte) :
    (D.buf.length + 1 = Config.headerSize ∧ lengthAboveBound P (lengthField (D.buf ++ [v])) ∧
      append P D v = (resetIdle, [.noise .overflow])) ∨
    (D.buf.length + 1 = Config.headerSize ∧ ¬ lengthAboveBound P (lengthField (D.buf ++ [v])) ∧
      append P D v = ({ D with buf := D.buf ++ [v], expLen := lengthField (D.buf ++ [v]) }, [])) ∨
    (D.buf.length + 1 ≠ Config.headerSize ∧ append P D v = lengthChecks P { D with buf := D.buf ++ [v] }) := by
  by_cases h₁ : D.buf.length + 1 = Config.headerSize
  · have hh : headerComplete (D.buf ++ [v]).length := by simpa [headerComplete] using h₁
    by_cases h₂ : lengthAboveBound P (lengthField (D.buf ++ [v]))
    · refine .inl ⟨h₁, h₂, ?_⟩
      simp only [append, if_pos hh, headerParse, if_pos h₂]; rfl
    · refine .inr (.inl ⟨h₁, h₂, ?_⟩)
      simp only [append, if_pos hh, headerParse, if_neg h₂]
      have hn : (D.buf ++ [v]).length = 4 := hh
      rcases lengthChecks_cases P { D with buf := D.buf ++ [v], expLen := lengthField (D.buf ++ [v]) } with h | h | h
      · exact absurd h.1.1 (show ¬ (4 < (D.buf ++ [v]).length) by omega)
      · exact absurd h.1 (show ¬ (4 + (lengthField (D.buf ++ [v])).toNat + 2 < (D.buf ++ [v]).length) by omega)
      · exact h.2.2
  · refine .inr (.inr ⟨h₁, ?_⟩)
    have hh : ¬ headerComplete (D.buf ++ [v]).length := by simpa [headerComplete] using h₁
    simp only [append, if_neg hh]

/-! ### The shape of a FEED row -/

/-- A FEED row answers a next state exactly on an instance that exists, in the row's state, on a byte of the row; it
then writes that instance and hands out its events. -/
theorem feedRow_next_iff (inst : Nat) (row : St) (fits : Params → Bool)
    (act : Params → Decoder → Decoder × List Event) (s t : State) :
    feedRow inst row fits act s = .next t ↔
      ∃ D, s.decoder? inst = some D ∧ D.st = row ∧ fits s.params = true ∧
        t = (s.setDecoder inst (act s.params D).1).emit inst (act s.params D).2 := by
  unfold feedRow
  cases hD : s.decoder? inst with
  | none => simp
  | some D =>
    by_cases h : D.st = row ∧ fits s.params = true
    · simp only [if_pos h, Host.Outcome.next.injEq, Option.some.injEq]
      constructor
      · rintro rfl; exact ⟨D, rfl, h.1, h.2, rfl⟩
      · rintro ⟨_, rfl, -, -, rfl⟩; rfl
    · simp only [if_neg h, Option.some.injEq, reduceCtorEq, false_iff]
      rintro ⟨_, rfl, h₁, h₂, -⟩; exact h ⟨h₁, h₂⟩

/-- What a FEED row does when it is the one selected. -/
theorem feedRow_eq (inst : Nat) (row : St) (fits : Params → Bool)
    (act : Params → Decoder → Decoder × List Event) (s : State) (D : Decoder)
    (hD : s.decoder? inst = some D) (hst : D.st = row) (hf : fits s.params = true) :
    feedRow inst row fits act s = .next ((s.setDecoder inst (act s.params D).1).emit inst (act s.params D).2) :=
  (feedRow_next_iff inst row fits act s _).2 ⟨D, hD, hst, hf, rfl⟩

/-! ### Taking what is asked for -/

/-- Everything `perform` can answer with a next state: it ran the operation its word decodes to. -/
theorem perform_next (r : Request) (s t : State) (h : perform r s = .next t) :
    ∃ d i, r.word s = .ok d ∧ decode s.params d r.args = .ok i ∧ exec i s = .next t := by
  unfold perform at h
  cases hw : r.word s with
  | error f => rw [hw] at h; simp at h
  | ok d =>
    rw [hw] at h
    cases hd : decode s.params d r.args with
    | error e => simp only [hd] at h; cases e <;> simp at h
    | ok i => simp only [hd] at h; exact ⟨d, i, rfl, hd, h⟩

/-- A feed of no bytes leaves the state as it is. -/
theorem feedNothing_next (inst : Nat) (origin : Origin) (s t : State) (h : feedNothing inst origin s = .next t) :
    t = s := by
  unfold feedNothing at h
  split at h
  · simp at h
  · simpa using h.symm

/-- A feed may go on exactly when the owner makes it, into an instance that exists. -/
theorem feedTarget_ok_iff (inst : Nat) (origin : Origin) (s : State) (D : Decoder) :
    feedTarget inst origin s = .ok D ↔ origin = .owner ∧ s.decoder? inst = some D := by
  unfold feedTarget
  cases origin
  · cases h : s.decoder? inst <;> simp
  · simp
  · simp

/-- Everything a step can answer with a next state: nothing was asked for, or an operation ran, or an empty chunk was
consumed, or an instance was dropped. -/
theorem step_cases (s t : State) (h : step s = .next t) :
    (s.inputs = [] ∧ t = s) ∨
    (∃ i ins, exec i { s with inputs := ins } = .next t) ∨
    (∃ inst origin rest, s.inputs = .chunk inst origin [] :: rest ∧ t = { s with inputs := rest }) ∨
    (∃ inst rest, s.inputs = .drop inst :: rest ∧ t = State.eraseDecoder { s with inputs := rest } inst) := by
  unfold step takeInput at h
  split at h
  · rename_i h₀
    simp only [Host.Outcome.next.injEq] at h
    exact .inl ⟨h₀, h.symm⟩
  · rename_i r rest _
    obtain ⟨_, i, -, -, hi⟩ := perform_next r _ t h
    exact .inr (.inl ⟨i, rest, hi⟩)
  · rename_i inst origin rest h₀
    exact .inr (.inr (.inl ⟨inst, origin, rest, h₀, feedNothing_next _ _ _ _ h⟩))
  · rename_i inst origin b bs rest _
    obtain ⟨_, i, -, -, hi⟩ := perform_next _ _ t h
    exact .inr (.inl ⟨i, chunkRest inst origin bs rest, hi⟩)
  · rename_i inst rest h₀
    unfold dropDecoder at h
    split at h
    · simp at h
    · simp only [Host.Outcome.next.injEq] at h
      exact .inr (.inr (.inr ⟨inst, rest, h₀, h.symm⟩))

/-- `run` is the host's run of the machine. -/
theorem run_eq_core_run (k : Nat) (s : State) : run k s = Host.Core.run Sys2Proof.core k s := by
  induction k generalizing s with
  | zero => rfl
  | succ k ih =>
    refine Eq.trans ?_ (Host.Core.run.eq_2 Sys2Proof.core s k).symm
    have e : Sys2Proof.core.step s = step s := rfl
    unfold run
    rw [e]
    cases step s with
    | next s' => exact ih s'
    | fault f => rfl
    | refused r => rfl

end Sys2Proof.Machine
end

