-- ==== Sys2Proof/Laws/Exec.lean ====
section
/-! SUPPORT. Everything an operation can do when it answers a next state, said once. -/

namespace Sys2Proof.Machine

/-! ### The arms of the FEED rows -/

theorem exec_feedIdleStart (inst : Nat) (s : State) : exec (.feedIdleStart inst) s =
    feedRow inst .idle (fun _ => true) (fun _ _ => (resetCollecting, [])) s := rfl

theorem exec_feedIdleOther (inst : Nat) (b : Byte) (s : State) : exec (.feedIdleOther inst b) s =
    feedRow inst .idle (fun P => b != P.startToken) (fun _ D => (D, [])) s := rfl

theorem exec_feedCollStart (inst : Nat) (s : State) : exec (.feedCollStart inst) s =
    feedRow inst .collecting (fun _ => true) (fun _ _ => (resetCollecting, [.noise .multipleStartTokens])) s := rfl

theorem exec_feedCollEscape (inst : Nat) (s : State) : exec (.feedCollEscape inst) s =
    feedRow inst .collecting (fun _ => true) (fun _ D => ({ D with st := .escaping }, [])) s := rfl

theorem exec_feedCollData (inst : Nat) (b : Byte) (s : State) : exec (.feedCollData inst b) s =
    feedRow inst .collecting (fun P => b != P.startToken && b != P.escapeToken) (fun P D => append P D b) s := rfl

theorem exec_feedEscStart (inst : Nat) (s : State) : exec (.feedEscStart inst) s =
    feedRow inst .escaping (fun _ => true)
      (fun P D => match P.escPolicy with
        | .tokenFirst => violation .multipleStartTokens resetCollecting
        | .literal => appendEscaped P D P.startToken) s := rfl

theorem exec_feedEscEscape (inst : Nat) (s : State) : exec (.feedEscEscape inst) s =
    feedRow inst .escaping (fun _ => true)
      (fun P D => match P.escPolicy with
        | .tokenFirst => violation .doubleEscape resetIdle
        | .literal => appendEscaped P D P.escapeToken) s := rfl

theorem exec_feedEscData (inst : Nat) (b : Byte) (s : State) : exec (.feedEscData inst b) s =
    feedRow inst .escaping (fun P => P.escPolicy == .literal || (b != P.startToken && b != P.escapeToken))
      (fun P D => appendEscaped P D b) s := rfl

/-! ### What an operation can do -/

/-- Everything a FEED row can do to a decoder, and the events it emits with it (R80 to R87). -/
inductive RowEffect (P : Params) (D : Decoder) : Decoder × List Event → Prop where
  | opened : D.st = .idle → RowEffect P D (resetCollecting, [])
  | discarded : D.st = .idle → RowEffect P D (D, [])
  | restarted : D.st = .collecting ∨ D.st = .escaping →
      RowEffect P D (resetCollecting, [.noise .multipleStartTokens])
  | armed : D.st = .collecting → RowEffect P D ({ D with st := .escaping }, [])
  | doubleEscape : D.st = .escaping → RowEffect P D (resetIdle, [.noise .doubleEscape])
  | appended (v : Byte) : D.st = .collecting ∨ D.st = .escaping →
      RowEffect P D (append P { D with st := .collecting } v)

/-- What a FEED row gives, from what it does to the decoder. -/
theorem feedRow_effect {inst : Nat} {row : St} {fits : Params → Bool}
    {act : Params → Decoder → Decoder × List Event} {s t : State} (h : feedRow inst row fits act s = .next t)
    (he : ∀ D : Decoder, D.st = row → RowEffect s.params D (act s.params D)) :
    ∃ D r, s.decoder? inst = some D ∧ RowEffect s.params D r ∧ t = (s.setDecoder inst r.1).emit inst r.2 ∧
      ∀ s' : State, s'.params = s.params → s'.decoder? inst = some D →
        feedRow inst row fits act s' = .next ((s'.setDecoder inst r.1).emit inst r.2) := by
  obtain ⟨D, hD, hst, hf, rfl⟩ := (feedRow_next_iff inst row fits act s t).1 h
  refine ⟨D, act s.params D, hD, he D hst, rfl, fun s' hP hD' => ?_⟩
  rw [feedRow_eq inst row fits act s' D hD' hst (hP ▸ hf), hP]

/-- Everything an operation can do when it answers a next state, and that it does the same in any other state with the
same parameters and the same instance: NEW makes a decoder; ENCODE, CRC16 and STUFF hand out one result; a FEED row has
its effect on its instance. -/
theorem exec_cases (i : Instr) (s t : State) (h : exec i s = .next t) :
    (∃ inst, i = .new inst ∧ t = s.setDecoder inst Decoder.reset) ∨
    (∃ o, i.target = none ∧ (∀ inst e, o ≠ .event inst e) ∧ t = s.putOut o ∧
      ∀ s' : State, s'.params = s.params → exec i s' = .next (s'.putOut o)) ∨
    (∃ inst D r, i.target = some inst ∧ s.decoder? inst = some D ∧ RowEffect s.params D r ∧
      t = (s.setDecoder inst r.1).emit inst r.2 ∧
      ∀ s' : State, s'.params = s.params → s'.decoder? inst = some D →
        exec i s' = .next ((s'.setDecoder inst r.1).emit inst r.2)) := by
  have row : ∀ {inst row fits act}, feedRow inst row fits act s = .next t →
      (∀ D : Decoder, D.st = row → RowEffect s.params D (act s.params D)) → i.target = some inst →
      (∀ s' : State, exec i s' = feedRow inst row fits act s') →
      ∃ inst D r, i.target = some inst ∧ s.decoder? inst = some D ∧ RowEffect s.params D r ∧
        t = (s.setDecoder inst r.1).emit inst r.2 ∧
        ∀ s' : State, s'.params = s.params → s'.decoder? inst = some D →
          exec i s' = .next ((s'.setDecoder inst r.1).emit inst r.2) := by
    intro inst row fits act h he ht hx
    obtain ⟨D, r, hD, hr, hs, hall⟩ := feedRow_effect h he
    exact ⟨inst, D, r, ht, hD, hr, hs, fun s' hP hD' => by rw [hx, hall s' hP hD']⟩
  have out : ∀ o : Output, exec i s = .next (s.putOut o) → i.target = none → (∀ inst e, o ≠ .event inst e) →
      (∀ s' : State, s'.params = s.params → exec i s' = .next (s'.putOut o)) →
      ∃ o, i.target = none ∧ (∀ inst e, o ≠ .event inst e) ∧ t = s.putOut o ∧
        ∀ s' : State, s'.params = s.params → exec i s' = .next (s'.putOut o) := by
    intro o ho ht hne hall
    rw [h] at ho
    exact ⟨o, ht, hne, Host.Outcome.next.inj ho, hall⟩
  cases i with
  | new inst => exact .inl ⟨inst, rfl, (Host.Outcome.next.inj h).symm⟩
  | feedIdleStart inst => exact .inr (.inr (row ((exec_feedIdleStart inst s).symm.trans h) (fun D hD => .opened hD) rfl (exec_feedIdleStart inst)))
  | feedIdleOther inst b => exact .inr (.inr (row ((exec_feedIdleOther inst b s).symm.trans h) (fun D hD => .discarded hD) rfl (exec_feedIdleOther inst b)))
  | feedCollStart inst => exact .inr (.inr (row ((exec_feedCollStart inst s).symm.trans h) (fun D hD => .restarted (.inl hD)) rfl (exec_feedCollStart inst)))
  | feedCollEscape inst => exact .inr (.inr (row ((exec_feedCollEscape inst s).symm.trans h) (fun D hD => .armed hD) rfl (exec_feedCollEscape inst)))
  | feedCollData inst b =>
    refine .inr (.inr (row ((exec_feedCollData inst b s).symm.trans h) (fun D hD => ?_) rfl (exec_feedCollData inst b)))
    obtain ⟨st, buf, expLen⟩ := D
    cases hD
    exact .appended b (.inl rfl)
  | feedEscStart inst =>
    refine .inr (.inr (row ((exec_feedEscStart inst s).symm.trans h) (fun D hD => ?_) rfl (exec_feedEscStart inst)))
    cases hp : s.params.escPolicy with
    | tokenFirst => exact .restarted (.inr hD)
    | literal => exact .appended _ (.inr hD)
  | feedEscEscape inst =>
    refine .inr (.inr (row ((exec_feedEscEscape inst s).symm.trans h) (fun D hD => ?_) rfl (exec_feedEscEscape inst)))
    cases hp : s.params.escPolicy with
    | tokenFirst => exact .doubleEscape hD
    | literal => exact .appended _ (.inr hD)
  | feedEscData inst b => exact .inr (.inr (row ((exec_feedEscData inst b s).symm.trans h) (fun D hD => .appended _ (.inr hD)) rfl (exec_feedEscData inst b)))
  | encode opcode payload =>
    exact .inr (.inl (out _ rfl rfl (by simp) fun s' hP => by
      show Host.Outcome.next (s'.putOut (.encoded (encodeFrame s'.params opcode payload))) = _
      rw [hP]))
  | crc16 data =>
    exact .inr (.inl (out _ rfl rfl (by simp) fun s' hP => by
      show Host.Outcome.next (s'.putOut (.crc (crc16 s'.params data))) = _
      rw [hP]))
  | stuff bytes =>
    exact .inr (.inl (out _ rfl rfl (by simp) fun s' hP => by
      show Host.Outcome.next (s'.putOut (.stuffed (stuff s'.params bytes))) = _
      rw [hP]))

/-- Everything the listing of R95 can do to a decoder. -/
theorem feed_effect (P : Params) (D : Decoder) (b : Byte) (r : Decoder × List Event)
    (h : Decoder.feed P D b = some r) : RowEffect P D r := by
  unfold Decoder.feed at h
  cases hst : D.st with
  | idle =>
    simp only [hst] at h
    split at h <;> cases h
    · exact .opened hst
    · exact .discarded hst
  | collecting =>
    simp only [hst] at h
    split at h
    · cases h; exact .restarted (.inl hst)
    · split at h <;> cases h
      · exact .armed hst
      · obtain ⟨st, buf, expLen⟩ := D
        cases hst
        exact .appended b (.inl rfl)
  | escaping =>
    simp only [hst] at h
    split at h
    · cases h; exact .restarted (.inr hst)
    · split at h <;> cases h
      · exact .doubleEscape hst
      · exact .appended _ (.inr hst)
  | reserved => simp only [hst] at h; cases h

end Sys2Proof.Machine
end

