-- ==== Sys2Proof/Laws/PerInstr.lean ====
section
/-! SUPPORT. Facts proved one constructor of Instr at a time. Family `Selector`: the dispatch word an operation encodes to
carries its own selector in bits 11:10 (R51), and only the internal rows have no word (R50). -/

namespace Sys2Proof.Laws.Selector

/-- The selector of an operation; none for an internal row (R51). -/
def selectorOf : Instr → Option (BitVec 2)
  | .new _ => some Sel.new
  | .feedIdleStart _ => some Sel.feed
  | .feedIdleOther _ _ => some Sel.feed
  | .feedCollStart _ => some Sel.feed
  | .feedCollEscape _ => some Sel.feed
  | .feedCollData _ _ => some Sel.feed
  | .feedEscStart _ => some Sel.feed
  | .feedEscEscape _ => some Sel.feed
  | .feedEscData _ _ => some Sel.feed
  | .encode _ _ => some Sel.encode
  | .crc16 _ => none
  | .stuff _ => none

/-- The word of `i` carries `i`'s selector, and `i` has a word exactly when it has a selector. -/
def Statement (i : Instr) : Prop :=
  ∀ P, (encode P i).map (fun w => w.1.extractLsb' 10 2) = selectorOf i

theorem feedWord_selector (st : BitVec 2) (b : Byte) : (feedWord st b).extractLsb' 10 2 = Sel.feed := by
  unfold feedWord
  ext i hi
  simp only [BitVec.getElem_extractLsb', BitVec.getLsbD_append]
  have : ¬ 10 + i < 2 + 8 := by omega
  simp [this, BitVec.getLsbD_eq_getElem hi]

theorem selWord_selector (sel : BitVec 2) : (selWord sel).extractLsb' 10 2 = sel := by
  unfold selWord
  ext i hi
  rw [BitVec.getElem_extractLsb', BitVec.getLsbD_append]
  have : ¬ 10 + i < 10 := by omega
  simp [this, BitVec.getLsbD_eq_getElem hi]

theorem new (inst : Nat) : Statement (.new inst) := fun _ => congrArg some (selWord_selector _)
theorem feedIdleStart (inst : Nat) : Statement (.feedIdleStart inst) := fun _ => congrArg some (feedWord_selector _ _)
theorem feedIdleOther (inst : Nat) (b : Byte) : Statement (.feedIdleOther inst b) :=
  fun _ => congrArg some (feedWord_selector _ _)
theorem feedCollStart (inst : Nat) : Statement (.feedCollStart inst) := fun _ => congrArg some (feedWord_selector _ _)
theorem feedCollEscape (inst : Nat) : Statement (.feedCollEscape inst) :=
  fun _ => congrArg some (feedWord_selector _ _)
theorem feedCollData (inst : Nat) (b : Byte) : Statement (.feedCollData inst b) :=
  fun _ => congrArg some (feedWord_selector _ _)
theorem feedEscStart (inst : Nat) : Statement (.feedEscStart inst) := fun _ => congrArg some (feedWord_selector _ _)
theorem feedEscEscape (inst : Nat) : Statement (.feedEscEscape inst) := fun _ => congrArg some (feedWord_selector _ _)
theorem feedEscData (inst : Nat) (b : Byte) : Statement (.feedEscData inst b) :=
  fun _ => congrArg some (feedWord_selector _ _)
theorem encode (opcode : U16) (payload : List Byte) : Statement (.encode opcode payload) :=
  fun _ => congrArg some (selWord_selector _)
theorem crc16 (data : List Byte) : Statement (.crc16 data) := fun _ => rfl
theorem stuff (bytes : List Byte) : Statement (.stuff bytes) := fun _ => rfl

end Sys2Proof.Laws.Selector
end

