-- ==== Sys2Proof/Laws/Program.lean ====
section
/-! SUPPORT. Programs of R66: what running statements, taking inputs and collecting event lists can do, each said once. -/

namespace Sys2Proof.Machine

/-! ### Event lists -/

@[simp] theorem filterMap_event (inst : Nat) (es : List Event) :
    (es.map (Output.event inst)).filterMap Output.event? = es := by
  induction es with
  | nil => rfl
  | cons e es ih => simp [Output.event?, ih]

/-- The events between two states are those handed out since. -/
theorem eventsBetween_append (s t : State) (os : List Output) (h : t.outputs = s.outputs ++ os) :
    eventsBetween s t = os.filterMap Output.event? := by simp [eventsBetween, h]

/-- Between a feed's two states they are the feed's events. -/
theorem eventsBetween_events (s t : State) (inst : Nat) (es : List Event)
    (h : t.outputs = s.outputs ++ es.map (Output.event inst)) : eventsBetween s t = es := by
  rw [eventsBetween_append s t _ h, filterMap_event]

/-! ### Taking inputs -/

theorem ProgramRun.take_nil (r : ProgramRun) : ProgramRun.take [] r = .ended r := rfl

/-- An input that runs to its end adds its event lists, and the others follow. -/
theorem ProgramRun.take_cons (x : Input) (xs : List Input) (r : ProgramRun) (t : State)
    (h : run x.steps { r.state with inputs := x :: r.state.inputs } = .next t) :
    ProgramRun.take (x :: xs) r =
      ProgramRun.take xs { r with state := t, feeds := r.feeds ++ x.feeds r.state t } := by
  simp only [ProgramRun.take, h]

/-- A fault of the machine is the program's. -/
theorem ProgramRun.take_fault (x : Input) (xs : List Input) (r : ProgramRun) (f : Fault)
    (h : run x.steps { r.state with inputs := x :: r.state.inputs } = .fault f) :
    ProgramRun.take (x :: xs) r = .fault f := by simp only [ProgramRun.take, h]

/-- Taking inputs writes the machine and the event lists only, and never forgets a list. -/
theorem ProgramRun.take_ended (xs : List Input) (r r' : ProgramRun) (h : ProgramRun.take xs r = .ended r') :
    r'.names = r.names ∧ r'.named = r.named ∧ ∃ fs, r'.feeds = r.feeds ++ fs := by
  induction xs generalizing r with
  | nil => cases h; exact ⟨rfl, rfl, [], (List.append_nil _).symm⟩
  | cons x xs ih =>
    cases hx : run x.steps { r.state with inputs := x :: r.state.inputs } with
    | next t =>
      obtain ⟨h₁, h₂, fs, h₃⟩ := ih _ (by rw [← ProgramRun.take_cons x xs r t hx]; exact h)
      exact ⟨h₁, h₂, x.feeds r.state t ++ fs, by rw [h₃, List.append_assoc]⟩
    | fault f => simp only [ProgramRun.take, hx] at h; cases h
    | refused q => simp only [ProgramRun.take, hx] at h; cases h

/-! ### Statements and programs -/

/-- A statement that asks for `ins`. -/
theorem Stmt.run_eq (st : Stmt) (r : ProgramRun) (ins : List Input) (ns : Names)
    (h : st.inputs r.state.params r.names = some (ins, ns)) :
    st.run r = ProgramRun.take ins { r with names := ns, named := addName r.named st.decoderName } := by
  simp only [Stmt.run, h]

/-- A statement that ends adds the decoder it names. -/
theorem Stmt.run_named (st : Stmt) (r r' : ProgramRun) (h : st.run r = .ended r') :
    r'.named = addName r.named st.decoderName := by
  unfold Stmt.run at h
  split at h
  · cases h
  · exact (ProgramRun.take_ended _ _ _ h).2.1

theorem mem_addName (named : List Nat) (o : Option Nat) (d : Nat) :
    d ∈ addName named o ↔ d ∈ named ∨ o = some d := by
  cases o with
  | none => simp [addName]
  | some k =>
    by_cases hk : k ∈ named
    · simp only [addName, hk, if_true, Option.some.injEq]
      exact ⟨.inl, fun h => h.elim id (fun h => h ▸ hk)⟩
    · simp [addName, hk, eq_comm]

theorem nodup_addName (named : List Nat) (o : Option Nat) (h : named.Nodup) : (addName named o).Nodup := by
  cases o with
  | none => exact h
  | some k =>
    by_cases hk : k ∈ named
    · simpa [addName, hk] using h
    · simp only [addName, hk, if_false]
      exact List.nodup_append.2 ⟨h, by simp, fun a ha b hb => by
        rw [List.mem_singleton] at hb; subst hb; exact fun he => hk (he ▸ ha)⟩

/-- A program and one more statement. -/
theorem runProgram_snoc (prog : List Stmt) (st : Stmt) (r₀ r : ProgramRun) (h : runProgram prog r₀ = .ended r) :
    runProgram (prog ++ [st]) r₀ = st.run r := by
  induction prog generalizing r₀ with
  | nil =>
    cases h
    simp only [List.nil_append, runProgram]
    cases st.run r <;> rfl
  | cons st' prog ih =>
    simp only [List.cons_append, runProgram] at h ⊢
    cases hs : st'.run r₀ with
    | ended r' => simp only [hs] at h ⊢; exact ih r' h
    | fault f => simp only [hs] at h; cases h
    | refused q => simp only [hs] at h; cases h
    | unbound => simp only [hs] at h; cases h

end Sys2Proof.Machine
end

