-- ==== Sys2Proof/Tests/Slice0.lean ====
section
/-! SUPPORT. The model's own tests. Expected values are the spec's: its opcode table, its worked examples and the vectors of
95_test_vectors.md (CV, SV, EV, DV, P). The last part shows, for every obligation with hypotheses, a state and operands
that meet them together. -/

namespace Sys2Proof.Tests

open Sys2Proof.Machine

/-! ### Helpers -/

/-- This hardware (R10). -/
abbrev hw : Params := Params.hardware
/-- The policy LITERAL (R55). -/
def literal : Params := { hw with escPolicy := .literal }
/-- A decoder bound below the length field's own (R76). -/
def small : Params := { hw with maxPayload := 2 }

/-- A decoder with given components. -/
def dec (st : St) (buf : List Byte) (expLen : U16) : Decoder := { st := st, buf := buf, expLen := expLen }

/-- One instance, named 0; nothing asked for, nothing handed out. -/
def one (P : Params) (D : Decoder) : State := { params := P, decoders := [(0, D)], inputs := [], outputs := [] }

/-- The next state of an answer, if it is one. -/
def after : Answer → Option State
  | .next t => some t
  | .fault _ => none
  | .refused _ => none

/-- What a step leaves of the instance 0, and everything handed out. -/
def seen (a : Answer) : Option (Option Decoder × List Output) := (after a).map (fun t => (t.decoder? 0, t.outputs))

/-! ### WellFormed refuses the ill-formed (R52, R53, R55) -/

theorem test_wf_idle_other_start : (Instr.feedIdleOther 0 0x7E).wf hw = false := by decide
theorem test_wf_idle_other_escape : (Instr.feedIdleOther 0 0x7D).wf hw = true := by decide
theorem test_wf_coll_data_start : (Instr.feedCollData 0 0x7E).wf hw = false := by decide
theorem test_wf_coll_data_escape : (Instr.feedCollData 0 0x7D).wf hw = false := by decide
theorem test_wf_coll_data_plain : (Instr.feedCollData 0 0x5E).wf hw = true := by decide
theorem test_wf_esc_start_literal : (Instr.feedEscStart 0).wf literal = false := by decide
theorem test_wf_esc_escape_literal : (Instr.feedEscEscape 0).wf literal = false := by decide
theorem test_wf_esc_data_start : (Instr.feedEscData 0 0x7E).wf hw = false := by decide
theorem test_wf_esc_data_escape : (Instr.feedEscData 0 0x7D).wf hw = false := by decide
theorem test_wf_esc_data_literal : (Instr.feedEscData 0 0x7E).wf literal = true := by decide

/-! ### Words, bit by bit: selector, state code, byte (R51, R53) -/

theorem test_word_new : decodeTableWord 16 0b00_00_00000000 = some (.new 0) := by decide
theorem test_word_new_ignores_low_bits : decodeTableWord 16 0b00_11_11111111 = some (.new 0) := by decide
theorem test_word_idle_start : decodeTableWord 16 0b01_00_01111110 = some (.feedIdleStart 0) := by decide
theorem test_word_idle_other : decodeTableWord 16 0b01_00_10000001 = some (.feedIdleOther 0 0x81) := by decide
theorem test_word_idle_escape : decodeTableWord 16 0b01_00_01111101 = some (.feedIdleOther 0 0x7D) := by decide
theorem test_word_coll_start : decodeTableWord 16 0b01_01_01111110 = some (.feedCollStart 0) := by decide
theorem test_word_coll_escape : decodeTableWord 16 0b01_01_01111101 = some (.feedCollEscape 0) := by decide
theorem test_word_coll_data : decodeTableWord 16 0b01_01_01011110 = some (.feedCollData 0 0x5E) := by decide
theorem test_word_esc_start : decodeTableWord 16 0b01_10_01111110 = some (.feedEscStart 0) := by decide
theorem test_word_esc_escape : decodeTableWord 16 0b01_10_01111101 = some (.feedEscEscape 0) := by decide
theorem test_word_esc_data : decodeTableWord 16 0b01_10_10100101 = some (.feedEscData 0 0xA5) := by decide
theorem test_word_encode : decodeTableWord 16 0b10_00_00000000 = some (.encode 0 []) := by decide
theorem test_word_reserved_selector : decodeTableWord 16 0b11_00_00000000 = none := by decide
theorem test_word_reserved_state : decodeTableWord 16 0b01_11_01111110 = none := by decide
theorem test_word_literal_token :
    decode literal 0b01_10_01111110 (Args.ofInst 3) = .ok (.feedEscData 3 0x7E) := by rfl

/-- The host's placing: the next step runs the row, in the state the word carries. -/
theorem test_placed_word_runs :
    seen (step (State.reset.withFetchWord 16 0x57D)) = some (some (dec .escaping [] 0), []) := by decide
theorem test_placed_reserved_state_faults : step (State.reset.withFetchWord 16 0x77E) = .fault .reservedState := by rfl
theorem test_placed_reserved_selector_refused :
    step (State.reset.withFetchWord 16 0xC00) = .refused .reservedSelector := by rfl

/-! ### One operation each -/

/-- R78, on a name that was in use. -/
theorem test_new : seen (exec (.new 0) (one hw (dec .escaping [1, 2] 0))) = some (some (dec .idle [] 0), []) := by decide

/-- DV-D3. -/
theorem test_idle_start : seen (exec (.feedIdleStart 0) (one hw Decoder.reset)) =
    some (some (dec .collecting [] 0), []) := by decide

/-- DV-D21: an ESCAPE_TOKEN in IDLE arms nothing. -/
theorem test_idle_other : seen (exec (.feedIdleOther 0 0x7D) (one hw Decoder.reset)) =
    some (some (dec .idle [] 0), []) := by decide

/-- R82's worked example, last byte. -/
theorem test_coll_start : seen (exec (.feedCollStart 0) (one hw (dec .collecting [1] 0))) =
    some (some (dec .collecting [] 0), [.event 0 (.noise .multipleStartTokens)]) := by decide

/-- P3, byte 8: the expected length stays. -/
theorem test_coll_escape : seen (exec (.feedCollEscape 0) (one hw (dec .collecting [0x7D, 0x7E, 2, 0] 2))) =
    some (some (dec .escaping [0x7D, 0x7E, 2, 0] 2), []) := by decide

/-- DV-D11, last byte: the header is parsed. -/
theorem test_coll_data_header : seen (exec (.feedCollData 0 0) (one hw (dec .collecting [1, 0, 2] 0))) =
    some (some (dec .collecting [1, 0, 2, 0] 2), []) := by decide

/-- DV-D12, last byte: the frame. -/
theorem test_coll_data_completes :
    seen (exec (.feedCollData 0 0x42) (one hw (dec .collecting [1, 0, 2, 0, 0xAA, 0xBB, 0xDD] 2))) =
      some (some (dec .idle [] 0), [.event 0 (.frame 1 [0xAA, 0xBB])]) := by decide +kernel

/-- DV-D14, last byte: the mismatch. -/
theorem test_crc_mismatch :
    seen (exec (.feedCollData 0 0x42) (one hw (dec .collecting [1, 0, 2, 0, 0xAA, 0xBC, 0xDD] 2))) =
      some (some (dec .idle [] 0), [.event 0 (.noise .crcMismatch)]) := by decide +kernel

/-- DV-D18, last byte: the bound 2. -/
theorem test_overflow : seen (exec (.feedCollData 0 0) (one small (dec .collecting [1, 0, 3] 0))) =
    some (some (dec .idle [] 0), [.event 0 (.noise .overflow)]) := by decide

/-- DV-D7, last byte, under either policy. -/
theorem test_esc_start : seen (exec (.feedEscStart 0) (one hw (dec .escaping [] 0))) =
    some (some (dec .collecting [] 0), [.event 0 (.noise .multipleStartTokens)]) := by decide
theorem test_esc_start_literal : seen (exec (.feedEscStart 0) (one literal (dec .escaping [] 0))) =
    some (some (dec .collecting [0x5E] 0), []) := by decide

/-- DV-D8, last byte, under either policy. -/
theorem test_esc_escape : seen (exec (.feedEscEscape 0) (one hw (dec .escaping [1] 0))) =
    some (some (dec .idle [] 0), [.event 0 (.noise .doubleEscape)]) := by decide
theorem test_esc_escape_literal : seen (exec (.feedEscEscape 0) (one literal (dec .escaping [1] 0))) =
    some (some (dec .collecting [1, 0x5D] 0), []) := by decide

/-- DV-D10, last byte: any byte after a prefix is accepted. -/
theorem test_esc_data : seen (exec (.feedEscData 0 0) (one hw (dec .escaping [] 0))) =
    some (some (dec .collecting [0x20] 0), []) := by decide

/-- DV-D27, last byte: the second byte of a pair completes a frame. -/
theorem test_esc_data_completes :
    seen (exec (.feedEscData 0 0x5E) (one hw (dec .escaping [0x86, 0, 0, 0, 0x61] 0))) =
      some (some (dec .idle [] 0), [.event 0 (.frame 0x86 [])]) := by decide +kernel

/-- EV-6. -/
theorem test_encode : encodeFrame hw 0x1234 [0x7E, 0x7D, 0x5E] =
    .ok [0x7E, 0x34, 0x12, 3, 0, 0x7D, 0x5E, 0x7D, 0x5D, 0x5E, 0xA4, 0x10] := by decide +kernel

/-- EV-8: a CRC byte is stuffed; the result is handed out and nothing else changes. -/
theorem test_encode_step : after (exec (.encode 0x86 []) (one hw Decoder.reset)) =
    some { one hw Decoder.reset with outputs := [.encoded (.ok [0x7E, 0x86, 0, 0, 0, 0x61, 0x7D, 0x5E])] } := by decide +kernel

/-- CV-3. -/
theorem test_crc16 : crc16 hw [0x31, 0x32, 0x33, 0x34, 0x35, 0x36, 0x37, 0x38, 0x39] = 0x29B1 := by decide +kernel

/-- CV-1. -/
theorem test_crc16_step : after (exec (.crc16 []) (one hw Decoder.reset)) =
    some { one hw Decoder.reset with outputs := [.crc 0xFFFF] } := by decide

/-- SV-5. -/
theorem test_stuff : stuff hw [0x7D, 0x7E, 2] = [0x7D, 0x5D, 0x7D, 0x5E, 2] := by decide

/-- SV-6. -/
theorem test_stuff_step : after (exec (.stuff [0x5E, 0x5D]) (one hw Decoder.reset)) =
    some { one hw Decoder.reset with outputs := [.stuffed [0x5E, 0x5D]] } := by decide

/-! ### The block's own rules over several operations -/

/-- R54 over the table: a word with state code 3 matches no row. -/
theorem test_table_reserved_state : tableDecode hw 0x77E (Args.ofInst 0) = none := by decide

/-- R51: of the rows a word matches, the one with the most mask bits. -/
theorem test_table_most_bits : tableDecode hw 0x47E (Args.ofInst 0) = some (.feedIdleStart 0) := by decide

/-- R66: SEND is an ENCODE and, on Ok, a chunk (EV-2). -/
theorem test_send : programInputs hw [] [.send 0 0 []] =
    some [.op (.ofEncode 0 []), .chunk 0 .owner [0x7E, 0, 0, 0, 0, 0xC0, 0x84]] := by decide +kernel

/-- R66: FEED of a name feeds what the name holds (EV-2). -/
theorem test_feed_name : programInputs hw [] [.encode 5 0 [], .feedName 1 5] =
    some [.op (.ofEncode 0 []), .chunk 1 .owner [0x7E, 0, 0, 0, 0, 0xC0, 0x84]] := by decide +kernel

/-- P1: the end state is the decoder and the one FEED's event list. -/
theorem test_program_one_chunk : programEnd [.new 0, .encode 5 1 [0xAA, 0xBB], .feedName 0 5] State.reset =
    some { decoders := [(0, dec .idle [] 0)], feeds := [[.frame 1 [0xAA, 0xBB]]] } := by decide +kernel

/-- P2: a FEED that emits nothing has an empty event list; a SEND is one FEED. -/
theorem test_program_resync :
    programEnd [.new 0, .feed 0 [0x11, 0x22], .feed 0 [0x7E, 0xA5, 0], .send 0 0xA5 [0x10, 0x20, 0x30]] State.reset =
      some { decoders := [(0, dec .idle [] 0)],
             feeds := [[], [], [.noise .multipleStartTokens, .frame 0xA5 [0x10, 0x20, 0x30]]] } := by decide +kernel

/-- P5: the event lists of two decoders, in the order of the FEEDs. -/
theorem test_program_two_decoders :
    programEnd [.new 0, .new 1, .feed 0 [0x7E, 1, 0], .feed 1 [0x7E, 1, 0, 2, 0, 0xAA, 0xBB, 0xDD, 0x42],
        .feed 0 [2, 0, 0xAA, 0xBB, 0xDD, 0x42]] State.reset =
      some { decoders := [(0, dec .idle [] 0), (1, dec .idle [] 0)],
             feeds := [[], [.frame 1 [0xAA, 0xBB]], [.frame 1 [0xAA, 0xBB]]] } := by decide +kernel

/-! ### Witnesses: what the obligations assume can be met

A theorem's name is `witness_` and the obligation's name; a suffix names a clause or a boundary. -/

theorem small_legal : small.Legal := by constructor <;> decide
theorem literal_legal : literal.Legal := by constructor <;> decide

/-- A request to feed the instance 0 one byte, before the state's other inputs. -/
def asking (s : State) (b : Byte) : State := { s with inputs := [.op (.ofFeed 0 .owner b)] }

theorem witness_StartTokenInIdleOpensAFrame :
    (one hw Decoder.reset).decoder? 0 = some Decoder.reset ∧ Decoder.reset.st = .idle := by decide

theorem witness_StartTokenInIdleOpensAFrame_only_way_out :
    ∃ t D', exec (.feedIdleStart 0) (one hw Decoder.reset) = .next t ∧ t.decoder? 0 = some D' ∧ D'.st ≠ .idle :=
  ⟨_, _, rfl, rfl, by decide⟩

theorem witness_OtherByteInIdleIsDiscarded :
    (one hw Decoder.reset).decoder? 0 = some Decoder.reset ∧ Decoder.reset.st = .idle ∧
      (0x7D : Byte) ≠ hw.startToken ∧ (0 : Byte) ≠ hw.startToken := by decide

theorem witness_StartTokenInCollectingRestarts :
    (one hw (dec .collecting [] 0)).decoder? 0 = some (dec .collecting [] 0) ∧
      (dec .collecting [] 0).st = .collecting := by decide

theorem witness_EscapeTokenInCollectingArmsEscaping :
    (one hw (dec .collecting [1, 0, 2, 0] 2)).decoder? 0 = some (dec .collecting [1, 0, 2, 0] 2) ∧
      (dec .collecting [1, 0, 2, 0] 2).st = .collecting := by decide

theorem witness_DataByteInCollectingIsAppended :
    (one hw (dec .collecting [1, 0, 2] 0)).decoder? 0 = some (dec .collecting [1, 0, 2] 0) ∧
      (dec .collecting [1, 0, 2] 0).st = .collecting ∧ (0x7F : Byte) ≠ hw.startToken ∧
      (0x7F : Byte) ≠ hw.escapeToken := by decide

theorem witness_StartTokenInEscaping :
    (one hw (dec .escaping [] 0)).decoder? 0 = some (dec .escaping [] 0) ∧ (dec .escaping [] 0).st = .escaping ∧
      (one hw (dec .escaping [] 0)).params.escPolicy = .tokenFirst ∧
      (one literal (dec .escaping [] 0)).params.escPolicy = .literal := by decide

theorem witness_EscapeTokenInEscaping :
    (one hw (dec .escaping [1] 0)).decoder? 0 = some (dec .escaping [1] 0) ∧ (dec .escaping [1] 0).st = .escaping ∧
      (one hw (dec .escaping [1] 0)).params.escPolicy = .tokenFirst ∧
      (one literal (dec .escaping [1] 0)).params.escPolicy = .literal := by decide

theorem witness_ByteInEscapingIsUnescapedAndAppended :
    (one hw (dec .escaping [] 0)).decoder? 0 = some (dec .escaping [] 0) ∧ (dec .escaping [] 0).st = .escaping ∧
      ((0x5E : Byte) ≠ hw.startToken ∧ (0x5E : Byte) ≠ hw.escapeToken) ∧ literal.escPolicy = .literal := by decide

theorem witness_RowOfAnotherStateFaults :
    (one hw Decoder.reset).decoder? 1 = none ∧ (one hw Decoder.reset).decoder? 0 = some Decoder.reset ∧
      Decoder.reset.st ≠ .collecting ∧ Decoder.reset.st ≠ .escaping ∧ (dec .escaping [] 0).st ≠ .idle := by decide

/-- A byte of another row, in the row's own state. -/
theorem witness_RowOfAnotherStateFaults_byte :
    (one hw Decoder.reset).decoder? 0 = some Decoder.reset ∧ (0x7E : Byte) = hw.startToken ∧ hw.IsToken 0x7D ∧
      (one hw (dec .collecting [] 0)).decoder? 0 = some (dec .collecting [] 0) ∧
      (one hw (dec .escaping [] 0)).decoder? 0 = some (dec .escaping [] 0) ∧ hw.escPolicy = .tokenFirst := by decide

theorem witness_AppendRunsTheLengthChecks_header :
    (dec .collecting [] 0).buf.length < 3 ∧ (dec .collecting [1, 0] 0).buf.length < 3 ∧
      (dec .collecting [1, 0, 2] 0).buf = [1, 0, 2] ∧ ¬ small.maxPayload < (2 : Byte).toNat + 256 * (0 : Byte).toNat ∧
      small.maxPayload < (3 : Byte).toNat + 256 * (0 : Byte).toNat := by decide

/-- The first and the last length at which nothing happens, and the first beyond completion. -/
theorem witness_AppendRunsTheLengthChecks_limit :
    (4 ≤ (dec .collecting [1, 0, 2, 0] 2).buf.length ∧ (dec .collecting [1, 0, 2, 0] 2).buf.length + 1 < 6 + 2) ∧
      (4 ≤ (dec .collecting [1, 0, 2, 0, 3, 4] 2).buf.length ∧
        (dec .collecting [1, 0, 2, 0, 3, 4] 2).buf.length + 1 < 6 + (dec .collecting [1, 0, 2, 0, 3, 4] 2).expLen.toNat) ∧
      (4 ≤ (dec .collecting [1, 0, 0, 0, 3, 4] 0).buf.length ∧
        6 + (dec .collecting [1, 0, 0, 0, 3, 4] 0).expLen.toNat < (dec .collecting [1, 0, 0, 0, 3, 4] 0).buf.length + 1) := by
  decide

/-- An empty and a non-empty payload. -/
theorem witness_CompletingByteValidatesAndResets :
    ((dec .collecting [0, 0, 0, 0, 0xC0] 0).buf = [0, 0, 0, 0] ++ [] ++ [0xC0] ∧
      (dec .collecting [0, 0, 0, 0, 0xC0] 0).expLen.toNat = ([] : List Byte).length) ∧
    ((dec .collecting [1, 0, 2, 0, 0xAA, 0xBB, 0xDD] 2).buf = [1, 0, 2, 0] ++ [0xAA, 0xBB] ++ [0xDD] ∧
      (dec .collecting [1, 0, 2, 0, 0xAA, 0xBB, 0xDD] 2).expLen.toNat = [(0xAA : Byte), 0xBB].length) := by decide

theorem witness_IncompleteFrameEmitsNothing :
    (dec .collecting [1, 0, 3, 0] 3).Good hw ∧ (dec .collecting [1, 0, 3, 0] 3).st = .collecting ∧
      unstuff hw false [0xAA, 0xBB, 0xDD, 0x42] = some ([0xAA, 0xBB, 0xDD, 0x42], false) ∧
      (lengthField [1, 0, 3, 0, 0xAA, 0xBB, 0xDD, 0x42]).toNat ≤ hw.maxPayload ∧
      [(1 : Byte), 0, 3, 0, 0xAA, 0xBB, 0xDD, 0x42].length <
        6 + (lengthField [1, 0, 3, 0, 0xAA, 0xBB, 0xDD, 0x42]).toNat :=
  ⟨⟨fun h => absurd h (by decide), fun _ => by decide⟩, rfl, by decide, by decide, by decide⟩

/-- A header that is not complete; a pair, and a prefix left pending, from either active state. -/
theorem witness_IncompleteFrameEmitsNothing_header :
    (dec .escaping [1] 0).Good small ∧ (dec .escaping [1] 0).st = .escaping ∧
      unstuff small true [0x5E, 0x7D] = some ([0x7E], true) ∧ ([(1 : Byte)] ++ [0x7E]).length < 4 :=
  ⟨⟨fun _ => rfl, fun h => absurd h (by decide)⟩, rfl, by decide, by decide⟩

/-- The header completed at the bound; under LITERAL a token after a prefix. -/
theorem witness_IncompleteFrameEmitsNothing_bound :
    (dec .collecting [] 0).Good small ∧ (dec .collecting [] 0).st = .collecting ∧
      unstuff small false [1, 0, 2, 0, 9, 9, 9] = some ([1, 0, 2, 0, 9, 9, 9], false) ∧
      (lengthField [1, 0, 2, 0, 9, 9, 9]).toNat ≤ small.maxPayload ∧
      [(1 : Byte), 0, 2, 0, 9, 9, 9].length < 6 + (lengthField [1, 0, 2, 0, 9, 9, 9]).toNat ∧
      unstuff literal false [0x7D, 0x7E] = some ([0x5E], false) :=
  ⟨⟨fun _ => rfl, fun h => absurd h (by decide)⟩, rfl, by decide, by decide, by decide, by decide⟩

theorem witness_FeedStepIsTheListing :
    (asking (one hw (dec .escaping [1] 0)) 0x7D).inputs = [.op (.ofFeed 0 .owner 0x7D)] ∧
      (asking (one hw (dec .escaping [1] 0)) 0x7D).decoder? 0 = some (dec .escaping [1] 0) ∧
      (asking (one hw (dec .reserved [] 0)) 0).decoder? 0 = some (dec .reserved [] 0) := by decide

theorem witness_ChunkIsItsBytesInOrder :
    let s : State := { one hw Decoder.reset with inputs := [.chunk 0 .owner [0x7E, 0x7E]] }
    s.inputs = .chunk 0 .owner [0x7E, 0x7E] :: [] ∧ s.decoder? 0 = some Decoder.reset ∧
      Decoder.feedChunk s.params Decoder.reset [0x7E, 0x7E] =
        some (dec .collecting [] 0, [.noise .multipleStartTokens]) ∧
      Decoder.feedChunk s.params Decoder.reset [] = some (Decoder.reset, []) := by decide

theorem witness_ChunkingCannotBeObserved : [(0x7E : Byte)] ≠ [] ∧ [(1 : Byte), 0] ≠ [] := by decide

theorem witness_IdleDiscardsUntilAStartToken :
    Decoder.reset.st = .idle ∧ hw.startToken ∉ [(0 : Byte), 0xFF, 0x7D, 0x11] := by decide

theorem witness_StartTokenReopensAnyDecoder :
    (asking (one hw (dec .escaping [1] 0)) 0x7E).inputs = [.op (.ofFeed 0 .owner hw.startToken)] ∧
      (asking (one hw (dec .escaping [1] 0)) 0x7E).decoder? 0 = some (dec .escaping [1] 0) ∧
      (dec .escaping [1] 0).st ≠ .reserved ∧ Decoder.reset.st ≠ .reserved ∧ hw.escPolicy = .tokenFirst := by decide

theorem witness_StuffReplacesTokenBytes :
    small.Legal ∧ (stuff small [0x7D, 0x7E])[0]? = some small.escapeToken ∧
      (stuff small [0x7D, 0x7E])[2]? = some small.escapeToken := ⟨small_legal, by decide, by decide⟩

/-- The empty payload, and one with tokens in every field. -/
theorem witness_WireBytesLengthAndStartToken :
    small.Legal ∧ encodeFrame small 0 [] = .ok [0x7E, 0, 0, 0, 0, 0xC0, 0x84] ∧
      encodeFrame small 0x7E7D [0x7E, 0x7D] =
        .ok [0x7E, 0x7D, 0x5D, 0x7D, 0x5E, 2, 0, 0x7D, 0x5E, 0x7D, 0x5D, 0xE5, 0xBE] :=
  ⟨small_legal, by decide +kernel, by decide +kernel⟩

/-- The least and the greatest length between the two bounds. -/
theorem witness_EncoderBoundIsNotTheDecoders :
    small.Legal ∧ small.maxPayload < (List.replicate 3 (0 : Byte)).length ∧
      (List.replicate 65535 (0 : Byte)).length ≤ 65535 ∧ small.maxPayload < (List.replicate 65535 (0 : Byte)).length ∧
      Decoder.reset.st = .idle := by
  refine ⟨small_legal, by decide, ?_, ?_, rfl⟩
  · rw [List.length_replicate]
  · rw [List.length_replicate]; decide

theorem witness_ChangedByteChangesTheCrc : hw.crcPoly.getLsbD 0 = true ∧ (0 : Byte) ≠ 1 := by decide

/-- The shortest frame, from each state; the longest payload within the bound. -/
theorem witness_EncodedFrameDecodesToItself :
    small.Legal ∧ ([] : List Byte).length ≤ small.maxPayload ∧ [(0xAA : Byte), 0xBB].length ≤ small.maxPayload ∧
      encodeFrame small 0 [] = .ok [0x7E, 0, 0, 0, 0, 0xC0, 0x84] ∧
      encodeFrame small 1 [0xAA, 0xBB] = .ok [0x7E, 1, 0, 2, 0, 0xAA, 0xBB, 0xDD, 0x42] ∧
      Decoder.reset.st = .idle ∧ small.escPolicy = .tokenFirst ∧ (dec .escaping [1] 0).st = .escaping ∧
      (dec .collecting [1] 0).st = .collecting :=
  ⟨small_legal, by decide +kernel, by decide +kernel, by decide +kernel, by decide +kernel, rfl, rfl, rfl, rfl⟩

theorem witness_SendDeliversTheFrame :
    let ins : List Input := [.op (.ofEncode 0 []), .chunk 0 .owner [0x7E, 0, 0, 0, 0, 0xC0, 0x84]]
    let s : State := { one small Decoder.reset with inputs := ins ++ [.drop 0] }
    s.params.Legal ∧ ([] : List Byte).length ≤ s.params.maxPayload ∧ s.decoder? 0 = some Decoder.reset ∧
      Decoder.reset.st = .idle ∧ programInputs s.params [] [.send 0 0 []] = some ins ∧
      s.inputs = ins ++ [.drop 0] :=
  ⟨small_legal, by decide +kernel, rfl, rfl, by decide +kernel, rfl⟩

theorem witness_OversizeSendFeedsNothing : 65535 < (List.replicate 65536 (0 : Byte)).length := by
  rw [List.length_replicate]; decide

/-- Garbage that completes nothing, and garbage that ends in a double escape (DV-D24). -/
theorem witness_FrameAfterGarbageResynchronizes :
    small.Legal ∧ small.escPolicy = .tokenFirst ∧ [(0xAA : Byte), 0xBB].length ≤ small.maxPayload ∧
      encodeFrame small 1 [0xAA, 0xBB] = .ok [0x7E, 1, 0, 2, 0, 0xAA, 0xBB, 0xDD, 0x42] ∧
      (dec .collecting [] 0).st ≠ .reserved ∧ small.startToken ∉ [(1 : Byte), 0x7D, 0x7D, 0x55] ∧
      small.startToken ∉ ([] : List Byte) :=
  ⟨small_legal, rfl, by decide +kernel, by decide +kernel, by decide +kernel, by decide +kernel, by decide +kernel⟩

/-- DV-D22 (an opcode byte), DV-D14 (a payload byte) and DV-D23 (a CRC byte); 2 and 5 are the boundaries. -/
theorem witness_ChangedWireByteGivesOneCrcMismatch :
    let w : List Byte := [0x7E, 1, 0, 2, 0, 0xAA, 0xBB, 0xDD, 0x42]
    small.Legal ∧ small.crcPoly.getLsbD 0 = true ∧ [(0xAA : Byte), 0xBB].length ≤ small.maxPayload ∧
      encodeFrame small 1 [0xAA, 0xBB] = .ok w ∧ Decoder.reset.st = .idle ∧
      (w[1]? = some 1 ∧ (1 : Byte) ≠ 3 ∧ ¬ small.IsToken 1 ∧ ¬ small.IsToken 3) ∧
      (w[2]? = some 0 ∧ 2 < 1 + (stuff small ((unescapedFrame small 1 [0xAA, 0xBB]).take 2)).length) ∧
      (w[5]? = some 0xAA ∧ 1 + (stuff small ((unescapedFrame small 1 [0xAA, 0xBB]).take 4)).length ≤ 5) ∧
      (w[7]? = some 0xDD ∧ (0xDD : Byte) ≠ 0xDC ∧ ¬ small.IsToken 0xDD ∧ ¬ small.IsToken 0xDC) :=
  ⟨small_legal, by decide +kernel, by decide +kernel, by decide +kernel, rfl, by decide +kernel, by decide +kernel, by decide +kernel, by decide +kernel⟩

theorem witness_DecoderAfterAnEvent :
    ∃ t, exec (.feedCollStart 0) (one hw (dec .collecting [1] 0)) = .next t ∧
      t.outputs = [.event 0 (.noise .multipleStartTokens)] := ⟨_, rfl, by decide⟩

theorem witness_DecoderAfterAnEvent_idle :
    ∃ t, exec (.feedEscEscape 0) (one hw (dec .escaping [1] 0)) = .next t ∧
      t.outputs = [.event 0 (.noise .doubleEscape)] := ⟨_, rfl, by decide⟩

theorem witness_AtMostOneEventPerByte :
    (∃ t, step (asking (one hw Decoder.reset) 0x7E) = .next t) ∧
      Decoder.feedChunk hw Decoder.reset [0x7E, 0x7E] = some (dec .collecting [] 0, [.noise .multipleStartTokens]) :=
  ⟨⟨_, rfl⟩, by decide⟩

/-- Under the bound 2 the length field 3 gives Overflow; under 65535 the same byte gives none. -/
theorem witness_OverflowComesFromTheBoundAlone :
    (dec .collecting [1, 0, 3] 0).Good small ∧
      Decoder.feed small (dec .collecting [1, 0, 3] 0) 0 = some (dec .idle [] 0, [.noise .overflow]) ∧
      (dec .collecting [1, 0, 3] 0).Good hw ∧ hw.maxPayload = 65535 ∧
      Decoder.feed hw (dec .collecting [1, 0, 3] 0) 0 = some (dec .collecting [1, 0, 3, 0] 3, []) := by
  refine ⟨⟨fun _ => rfl, fun h => absurd h (by decide)⟩, by decide, ⟨fun _ => rfl, fun h => absurd h (by decide)⟩, rfl,
    by decide⟩

/-- A good state in the middle of a frame. -/
def midFrame : State := asking (one small (dec .collecting [1, 0, 2, 0, 0xAA] 2)) 0xBB

theorem midFrame_good : midFrame.Good := by
  refine ⟨small_legal, by decide, ?_⟩
  intro inst D h
  cases inst with
  | zero => cases h; exact ⟨fun h => absurd h (by decide), fun _ => by decide⟩
  | succ n => simp [midFrame, asking, one, State.decoder?, Table.find] at h

theorem witness_StepKeepsTheStateGood : midFrame.Good ∧ ∃ t, step midFrame = .next t := ⟨midFrame_good, _, rfl⟩

theorem witness_BufferStaysBelowCapacity : (dec .collecting [1, 0, 2, 0, 0xAA] 2).Good small :=
  ⟨fun h => absurd h (by decide), fun _ => by decide⟩

theorem witness_ParametersAreNeverWritten : ∃ t, step midFrame = .next t := ⟨_, rfl⟩

theorem witness_OperationsLeaveOtherInstances :
    ∃ t, exec (.new 1) midFrame = .next t ∧ Instr.target (.new 1) ≠ some 0 := ⟨_, rfl, by decide⟩

/-- Two states that differ in another instance, in what is asked for and in what was handed out. -/
theorem witness_OutcomeDependsOnTheInstanceAlone :
    let s₂ : State := { midFrame with decoders := [(0, dec .collecting [1, 0, 2, 0, 0xAA] 2), (1, Decoder.reset)],
                                      inputs := [], outputs := [.crc 0] }
    midFrame.params = s₂.params ∧
      (∀ n, (Instr.feedCollData 0 0xBB).target = some n → midFrame.decoder? n = s₂.decoder? n) ∧
      ∃ t, exec (.feedCollData 0 0xBB) midFrame = .next t := by
  refine ⟨rfl, ?_, _, rfl⟩
  intro n h
  cases h
  rfl

theorem witness_DecodeOfEncodeIsTheOperation :
    hw.startToken ≠ hw.escapeToken ∧ (Instr.feedEscData 7 0x5E).wf hw = true ∧
      encode hw (.feedEscData 7 0x5E) = some (0x65E, Args.ofInst 7) ∧
      (Instr.feedEscData 7 0x7E).wf literal = true ∧
      encode literal (.feedEscData 7 0x7E) = some (0x67E, Args.ofInst 7) := by decide

theorem witness_EncodeOfDecodeIsTheWord :
    decode hw 0x3FF (Args.ofInst 7) = .ok (.new 7) ∧ decode hw 0x57D (Args.ofInst 7) = .ok (.feedCollEscape 7) ∧
      (0x57D : DispatchWord).extractLsb' 10 2 = Sel.feed := ⟨rfl, rfl, by decide⟩

theorem witness_DecoderFollowsTheOpcodeTable :
    hw.startToken ≠ hw.escapeToken ∧ decode hw 0x57D (Args.ofInst 7) = .ok (.feedCollEscape 7) ∧
      tableDecode hw 0x57D (Args.ofInst 7) = some (.feedCollEscape 7) := ⟨by decide, rfl, by decide⟩

theorem witness_FeedRowsByStateAndByte :
    hw.startToken ≠ hw.escapeToken ∧ hw.escPolicy = .tokenFirst ∧ (0x7D : Byte) ≠ hw.startToken ∧
      ¬ hw.IsToken 0x7F ∧ ¬ hw.IsToken 0x7C := by decide

theorem witness_LiteralPolicyHasOneEscapingRow :
    literal.escPolicy = .literal ∧ (0x67E : DispatchWord).extractLsb' 10 2 = 1 ∧
      (0x67E : DispatchWord).extractLsb' 8 2 = 2 := by decide

theorem witness_ReservedStateCodeFaults :
    ((0x700 : DispatchWord).extractLsb' 10 2 = 1 ∧ (0x700 : DispatchWord).extractLsb' 8 2 = 3) ∧
      (asking (one hw (dec .reserved [] 0)) 0).inputs = [.op (.ofFeed 0 .owner 0)] ∧
      (asking (one hw (dec .reserved [] 0)) 0).decoder? 0 = some (dec .reserved [] 0) ∧
      (dec .reserved [] 0).st = .reserved := by decide

theorem witness_ReservedSelectorIsRefused :
    let r : Request := { sel := 3, byte := 0, origin := .owner, args := Args.ofInst 0 }
    ({ one hw Decoder.reset with inputs := [.op r] } : State).inputs = .op r :: [] ∧ r.sel = 3 ∧
      (0xC00 : DispatchWord).extractLsb' 10 2 = 3 := by decide

theorem witness_StepRunsTheDecodedOperation :
    midFrame.inputs = .op (.ofFeed 0 .owner 0xBB) :: [] ∧
      (Request.ofFeed 0 .owner 0xBB).word midFrame = .ok 0x5BB ∧
      decode midFrame.params 0x5BB (Request.ofFeed 0 .owner 0xBB).args = .ok (.feedCollData 0 0xBB) := ⟨rfl, rfl, rfl⟩

theorem witness_StepRunsTheDecodedOperation_chunk :
    let s : State := { one hw Decoder.reset with inputs := [.chunk 0 .owner [0x7E]] }
    s.inputs = .chunk 0 .owner (0x7E :: []) :: [] ∧ s.decoder? 0 = some Decoder.reset ∧
      decode s.params (feedWord Decoder.reset.st.code 0x7E) (Args.ofInst 0) = .ok (.feedIdleStart 0) := ⟨rfl, rfl, rfl⟩

theorem witness_NothingAskedForNothingChanges : State.reset.inputs = [] := by decide

theorem witness_OverlappingAndReentrantFeedsFault :
    let s (i : Input) : State := { one hw Decoder.reset with inputs := [i] }
    (s (.op (.ofFeed 0 .overlap 0))).inputs = .op (.ofFeed 0 .overlap 0) :: [] ∧
      (s (.chunk 0 .overlap [])).inputs = .chunk 0 .overlap [] :: [] ∧
      (s (.op (.ofFeed 0 .handler 0))).inputs = .op (.ofFeed 0 .handler 0) :: [] ∧
      (s (.chunk 0 .handler [0])).inputs = .chunk 0 .handler [0] :: [] := by decide

theorem witness_DropLosesThePartialFrameSilently :
    let s : State := { midFrame with inputs := [.drop 0] }
    s.Good ∧ s.inputs = .drop 0 :: [] ∧ s.decoder? 0 = some (dec .collecting [1, 0, 2, 0, 0xAA] 2) :=
  ⟨⟨midFrame_good.1, midFrame_good.2, midFrame_good.3⟩, rfl, rfl⟩

/-- A program that has ended with a decoder in the middle of a frame, one name bound and one not. -/
def ranSoFar : ProgramRun :=
  { state := one small (dec .collecting [1] 0), names := [(5, .ok [0x7E])], named := [], feeds := [] }

theorem witness_ProgramFeedsInOrder :
    runProgram [] ranSoFar = .ended ranSoFar ∧ ranSoFar.state.decoder? 0 = some (dec .collecting [1] 0) ∧
      Decoder.feedChunk ranSoFar.state.params (dec .collecting [1] 0) [] = some (dec .collecting [1] 0, []) ∧
      Decoder.feedChunk ranSoFar.state.params (dec .collecting [1] 0) [0x7E, 0x7D] =
        some (dec .escaping [] 0, [.noise .multipleStartTokens]) ∧
      ranSoFar.names.bytes 5 = some [0x7E] ∧ ranSoFar.names.bytes 6 = none ∧ ranSoFar.state.decoder? 1 = none := by
  decide

theorem witness_ProgramEncodesAndSends :
    runProgram [] ranSoFar = .ended ranSoFar ∧
      encodeFrame ranSoFar.state.params 0 [] = .ok [0x7E, 0, 0, 0, 0, 0xC0, 0x84] ∧
      ranSoFar.state.decoder? 0 = some (dec .collecting [1] 0) ∧
      Decoder.feedChunk ranSoFar.state.params (dec .collecting [1] 0) [0x7E, 0, 0, 0, 0, 0xC0, 0x84] =
        some (dec .idle [] 0, [.noise .multipleStartTokens, .frame 0 []]) ∧
      65535 < (List.replicate 65536 (0 : Byte)).length :=
  ⟨by decide, by decide +kernel, by decide, by decide +kernel, witness_OversizeSendFeedsNothing⟩

theorem witness_ProgramEndIsDecodersAndEventLists :
    ∃ r, runProgram [.new 0, .feed 0 [0x7E]] (ProgramRun.start State.reset) = .ended r ∧
      (∃ st ∈ [Stmt.new 0, .feed 0 [0x7E]], st.decoderName = some 0) ∧
      r.state.decoder? 0 = some (dec .collecting [] 0) :=
  ⟨_, rfl, ⟨.new 0, by decide, rfl⟩, by decide⟩

end Sys2Proof.Tests
end

section
/-! SUPPORT. Scope: the byte order of a u16 field (R13, R37) and the parameter values of this hardware (R10, R11, R67). -/

namespace Sys2Proof.Machine

/-! ### Byte order -/

/-- The two wire bytes of a u16 by value: the remainder modulo 256 goes first, then the quotient (R13). -/
theorem bytesLE16_eq_ofNat (v : U16) :
    bytesLE16 v = [BitVec.ofNat 8 v.toNat, BitVec.ofNat 8 (v.toNat / 256)] := by
  have low : v.extractLsb' 0 8 = BitVec.ofNat 8 v.toNat := by
    simp [BitVec.extractLsb']
  have high : v.extractLsb' 8 8 = BitVec.ofNat 8 (v.toNat / 256) := by
    simp [BitVec.extractLsb', Nat.shiftRight_eq_div_pow]
  rw [bytesLE16, low, high]

@[simp] theorem bytesLE16_le16 (lo hi : Byte) : bytesLE16 (le16 lo hi) = [lo, hi] := by
  have low : BitVec.ofNat 8 (lo.toNat + 256 * hi.toNat) = lo := by bv_omega
  have high : BitVec.ofNat 8 ((lo.toNat + 256 * hi.toNat) / 256) = hi := by bv_omega
  rw [bytesLE16_eq_ofNat, le16_toNat, low, high]

/-- Reading back the two bytes of `bytesLE16 v`. -/
theorem le16_ofNat_toNat (v : U16) :
    le16 (BitVec.ofNat 8 v.toNat) (BitVec.ofNat 8 (v.toNat / 256)) = v := by
  apply BitVec.eq_of_toNat_eq
  rw [le16_toNat, BitVec.toNat_ofNat, BitVec.toNat_ofNat]
  omega

/-- Settles O15: both directions follow from the values of `le16` and `bytesLE16` as numbers. -/
theorem fieldsAreLittleEndian : Obligations.FieldsAreLittleEndian :=
  ⟨le16_toNat, bytesLE16_eq_ofNat, bytesLE16_le16,
    fun v => ⟨_, _, bytesLE16_eq_ofNat v, le16_ofNat_toNat v⟩⟩

/-! ### Parameter values -/

/-- R11 for the values of R10: the masked tokens are 0x5E and 0x5D, and neither is a token. -/
theorem hardware_legal : Params.hardware.Legal where
  tokens_differ := by decide
  mask_nonzero := by decide
  start_escaped := by decide
  escape_escaped := by decide
  bound := Nat.le_refl Config.maxLenField

/-- Settles O1: the sizes and the values of R10 and R67 are read off, and R11 is `hardware_legal`. -/
theorem hardwareTakesTheParameterValues : Obligations.HardwareTakesTheParameterValues := by
  refine ⟨?sizes, ?framing, ?crc, hardware_legal⟩
  case sizes => decide
  case framing => exact ⟨rfl, rfl, rfl, rfl, rfl, rfl⟩
  case crc => exact ⟨rfl, rfl, rfl, rfl, rfl⟩

end Sys2Proof.Machine
end

section
/-! SUPPORT. Scope: R22's invariant along every step (R11, R20, R33), what an operation leaves alone and depends on (R23,
R24, R28, R31, R32), the state after reset, and the reserved state code (R18, R54). -/

namespace Sys2Proof.Machine

/-! ### R22's invariant of one decoder -/

/-- What R22 asks of the buffer and the expected length of an active decoder; its two active states share it. -/
def Decoder.Collected (P : Params) (D : Decoder) : Prop :=
  (D.buf.length < Config.headerSize → D.expLen = 0) ∧
  (Config.headerSize ≤ D.buf.length →
    D.expLen = lengthField D.buf ∧ D.expLen.toNat ≤ P.maxPayload ∧ D.buf.length < completionLimit D.expLen)

theorem Decoder.good_iff_of_active (P : Params) (D : Decoder) (h : D.st = .collecting ∨ D.st = .escaping) :
    D.Good P ↔ D.Collected P := by
  obtain ⟨st, buf, expLen⟩ := D
  rcases h with rfl | rfl <;> rfl

@[simp] theorem good_resetIdle (P : Params) : resetIdle.Good P := ⟨rfl, rfl⟩

@[simp] theorem good_resetCollecting (P : Params) : resetCollecting.Good P :=
  ⟨fun _ => rfl, fun h => absurd h (by decide)⟩

/-- A complete header stays what it is when more is appended. -/
theorem lengthField_append (buf : List Byte) (v : Byte) (h : Config.headerSize ≤ buf.length) :
    lengthField (buf ++ [v]) = lengthField buf := by
  have same : ∀ i < 4, byteAt (buf ++ [v]) i = byteAt buf i := fun i hi =>
    List.getD_append _ _ _ _ (Nat.lt_of_lt_of_le hi h)
  rw [lengthField, lengthField, same 2 (by decide), same 3 (by decide)]

/-- APPEND keeps R22's invariant: it resets the decoder, or completes the header within the bound, or leaves the buffer
short of the completion limit (R88 to R92). -/
theorem append_keeps_good (P : Params) (D : Decoder) (v : Byte) (hst : D.st = .collecting)
    (h : D.Collected P) : (append P D v).1.Good P := by
  obtain ⟨short, long⟩ := h
  rcases append_cases P D v with ⟨-, -, he⟩ | ⟨hn, hb, he⟩ | ⟨hn, he⟩
  · rw [he]; exact good_resetIdle P
  · rw [he]
    refine (Decoder.good_iff_of_active P _ ?_).2 ⟨fun hlt => ?_, fun _ => ⟨rfl, Nat.le_of_not_lt hb, ?_⟩⟩
    · exact .inl hst
    · simp only [List.length_append, List.length_singleton, hn, lt_irrefl] at hlt
    · simp only [List.length_append, List.length_singleton, hn, completionLimit, Config.headerSize, Config.crcSize]
      omega
  · rw [he]
    rcases lengthChecks_cases P { D with buf := D.buf ++ [v] } with ⟨-, hl⟩ | ⟨-, hl⟩ | ⟨hc, hp, hl⟩
    · rw [hl, validate_fst]; exact good_resetIdle P
    · rw [hl]; exact good_resetIdle P
    · rw [hl]
      simp only [frameComplete, pastCompletion, List.length_append, List.length_singleton] at hc hp
      refine (Decoder.good_iff_of_active P _ ?_).2 ⟨fun hlt => short ?_, fun hge => ?_⟩
      · exact .inl hst
      · simp only [List.length_append, List.length_singleton] at hlt
        omega
      · simp only [List.length_append, List.length_singleton] at hge ⊢
        have header : Config.headerSize ≤ D.buf.length := by omega
        obtain ⟨hfield, hmax, -⟩ := long header
        exact ⟨hfield.trans (lengthField_append D.buf v header).symm, hmax, by omega⟩

/-- Whatever a FEED row does to a good decoder, it leaves a good one. -/
theorem RowEffect.keeps_good {P : Params} {D : Decoder} {r : Decoder × List Event} (h : RowEffect P D r)
    (hD : D.Good P) : r.1.Good P := by
  cases h with
  | opened _ => exact good_resetCollecting P
  | discarded _ => exact hD
  | restarted _ => exact good_resetCollecting P
  | armed hst => exact (Decoder.good_iff_of_active P D (.inl hst)).1 hD
  | doubleEscape _ => exact good_resetIdle P
  | appended v hst => exact append_keeps_good P _ v rfl ((Decoder.good_iff_of_active P D hst).1 hD)

/-! ### R22's invariant of the machine -/

/-- Being good is a matter of the parameters and the instance table alone. -/
theorem State.Good.of_same {s t : State} (h : s.Good) (hP : t.params = s.params) (hD : t.decoders = s.decoders) :
    t.Good := by
  obtain ⟨legal, wf, good⟩ := h
  refine ⟨hP ▸ legal, hD ▸ wf, fun inst D hf => hP ▸ good inst D ?_⟩
  rwa [State.decoder?, hD] at hf

theorem State.Good.withInputs {s : State} (h : s.Good) (ins : List Input) : State.Good { s with inputs := ins } :=
  h.of_same rfl rfl

theorem State.Good.setDecoder {s : State} (h : s.Good) (inst : Nat) {D : Decoder} (hD : D.Good s.params) :
    (s.setDecoder inst D).Good := by
  refine ⟨h.params_legal, Table.wf_set s.decoders inst D h.table_wf, fun n E hE => ?_⟩
  by_cases hn : n = inst
  · subst hn
    rw [State.decoder?_setDecoder_same, Option.some.injEq] at hE
    exact hE ▸ hD
  · rw [State.decoder?_setDecoder_ne s inst n D hn] at hE
    exact h.decoders_good n E hE

theorem State.Good.eraseDecoder {s : State} (h : s.Good) (inst : Nat) : (s.eraseDecoder inst).Good := by
  refine ⟨h.params_legal, Table.wf_erase s.decoders inst h.table_wf, fun n E hE => ?_⟩
  by_cases hn : n = inst
  · subst hn
    rw [State.decoder?_eraseDecoder_same s n h.table_wf] at hE
    cases hE
  · rw [State.decoder?_eraseDecoder_ne s inst n hn] at hE
    exact h.decoders_good n E hE

/-- Every operation keeps the state good: NEW writes a fresh decoder, the encoder and the internal rows write none, and a
FEED row has its effect on a good one. -/
theorem exec_keeps_good (i : Instr) (s t : State) (hs : s.Good) (h : exec i s = .next t) : t.Good := by
  rcases exec_cases i s t h with ⟨inst, -, rfl⟩ | ⟨o, -, -, rfl, -⟩ | ⟨inst, D, r, -, hD, hr, rfl, -⟩
  · exact hs.setDecoder inst (good_resetIdle s.params)
  · exact hs.of_same rfl rfl
  · exact (hs.setDecoder inst (hr.keeps_good (hs.decoders_good inst D hD))).of_same rfl rfl

/-- Settles O38, by the four things a step can do; an operation is `exec_keeps_good`. -/
theorem stepKeepsTheStateGood : Obligations.StepKeepsTheStateGood := by
  intro s t hs h
  rcases step_cases s t h with ⟨-, rfl⟩ | ⟨i, ins, hi⟩ | ⟨_, _, rest, -, rfl⟩ | ⟨inst, rest, -, rfl⟩
  · exact hs
  · exact exec_keeps_good i _ t (hs.withInputs ins) hi
  · exact hs.withInputs rest
  · exact (hs.withInputs rest).eraseDecoder inst

/-- Settles O40: below four bytes the bound is that of the header; from four on it is R22's bound on the expected length. -/
theorem bufferStaysBelowCapacity : Obligations.BufferStaysBelowCapacity := by
  refine ⟨fun P D h => ?bound, fun e => ?limit, rfl⟩
  case limit =>
    simp only [completionLimit, Config.headerSize, Config.crcSize]
    omega
  case bound =>
    have active (hst : D.st = .collecting ∨ D.st = .escaping) : D.buf.length ≤ P.bufCap - 1 := by
      obtain ⟨-, long⟩ := (Decoder.good_iff_of_active P D hst).1 h
      simp only [completionLimit, Params.bufCap, Config.headerSize, Config.crcSize] at long ⊢
      by_cases hn : 4 ≤ D.buf.length
      · obtain ⟨-, hmax, hlim⟩ := long hn
        omega
      · omega
    cases hst : D.st with
    | idle =>
      obtain ⟨empty, -⟩ : D.buf = [] ∧ D.expLen = 0 := by simpa only [Decoder.Good, hst] using h
      simp [empty]
    | collecting => exact active (.inl hst)
    | escaping => exact active (.inr hst)
    | reserved => simp only [Decoder.Good, hst] at h

/-! ### The state after reset -/

@[simp] theorem reset_decoder?_zero : State.reset.decoder? 0 = some Decoder.reset := rfl

theorem reset_decoder?_of_ne (n : Nat) (h : n ≠ 0) : State.reset.decoder? n = none := by
  simp [State.reset, State.decoder?, Table.find, h]

/-- Settles O2. -/
theorem resetHoldsOneFreshDecoder : Obligations.ResetHoldsOneFreshDecoder :=
  ⟨reset_decoder?_zero, reset_decoder?_of_ne, rfl, rfl⟩

/-- Settles O39: the parameters are this hardware's, and the one instance is in the reset state. -/
theorem resetStateIsGood : Obligations.ResetStateIsGood := by
  refine ⟨hardware_legal, List.pairwise_singleton _ _, fun inst D h => ?_⟩
  by_cases h0 : inst = 0
  · subst h0
    cases h
    exact good_resetIdle _
  · rw [reset_decoder?_of_ne inst h0] at h
    cases h

/-! ### What an operation leaves alone -/

/-- Settles O42, by what an operation can do: it writes at most the instance it is for. -/
theorem operationsLeaveOtherInstances : Obligations.OperationsLeaveOtherInstances := by
  intro i s t h
  rcases exec_cases i s t h with ⟨inst, rfl, rfl⟩ | ⟨o, -, -, rfl, -⟩ | ⟨inst, D, r, ht, -, -, rfl, -⟩
  · exact ⟨fun n hn => State.decoder?_setDecoder_ne s inst n _ fun he => hn (he ▸ rfl), rfl, rfl⟩
  · exact ⟨fun _ _ => rfl, rfl, rfl⟩
  · exact ⟨fun n hn => State.decoder?_setDecoder_ne s inst n _ fun he => hn (he ▸ ht), rfl, rfl⟩

/-- Settles O41: an operation leaves the parameters by O42, and no other step touches them. -/
theorem parametersAreNeverWritten : Obligations.ParametersAreNeverWritten := by
  intro s t h
  rcases step_cases s t h with ⟨-, rfl⟩ | ⟨i, ins, hi⟩ | ⟨_, _, rest, -, rfl⟩ | ⟨inst, rest, -, rfl⟩
  · rfl
  · obtain ⟨-, params, -⟩ := operationsLeaveOtherInstances i _ t hi
    exact params
  · rfl
  · rfl

/-- Settles O43: `exec_cases` says of each operation that it does the same in every state with the same parameters and the
same instance. -/
theorem outcomeDependsOnTheInstanceAlone : Obligations.OutcomeDependsOnTheInstanceAlone := by
  intro i s₁ s₂ t₁ hP hn h
  rcases exec_cases i s₁ t₁ h with ⟨inst, rfl, rfl⟩ | ⟨o, ht, -, rfl, same⟩ | ⟨inst, D, r, ht, hD, -, rfl, same⟩
  · refine ⟨s₂.setDecoder inst Decoder.reset, [], rfl, (List.append_nil _).symm, (List.append_nil _).symm, ?_⟩
    intro n hinst
    cases hinst
    simp
  · refine ⟨s₂.putOut o, [o], same s₂ hP.symm, rfl, rfl, ?_⟩
    intro n hnone
    rw [ht] at hnone
    cases hnone
  · refine ⟨_, r.2.map (Output.event inst), same s₂ hP.symm ((hn inst ht).symm.trans hD), rfl, rfl, ?_⟩
    intro n hinst
    rw [ht] at hinst
    cases hinst
    simp

/-! ### The reserved state code -/

theorem feedWord_stateCode (st : BitVec 2) (b : Byte) : (feedWord st b).extractLsb' 8 2 = st := by
  unfold feedWord
  ext i hi
  rw [BitVec.getElem_extractLsb', BitVec.getLsbD_append, BitVec.getLsbD_append]
  have inside : 8 + i < 2 + 8 := by omega
  simp [inside, BitVec.getLsbD_eq_getElem hi]

/-- The FEED rows reject a state code exactly when it is the reserved one (R53, R54). -/
theorem decodeFeed_error_iff (P : Params) (st : BitVec 2) (b : Byte) (inst : Nat) (e : DecodeError) :
    decodeFeed P st b inst = .error e ↔ st = StCode.reserved ∧ e = .reservedState := by
  have codes : st = StCode.idle ∨ st = StCode.collecting ∨ st = StCode.escaping ∨ st = StCode.reserved := by
    decide +revert
  rcases codes with rfl | rfl | rfl | rfl
  · cases hb : byteClass P b <;> simp [decodeFeed, hb, StCode.idle, StCode.reserved]
  · cases hb : byteClass P b <;> simp [decodeFeed, hb, StCode.idle, StCode.collecting, StCode.reserved]
  · cases hp : P.escPolicy <;> cases hb : byteClass P b <;>
      simp [decodeFeed, hp, hb, StCode.idle, StCode.collecting, StCode.escaping, StCode.reserved]
  · simp [decodeFeed, StCode.idle, StCode.collecting, StCode.escaping, StCode.reserved, eq_comm]

/-- A word is rejected for its state code exactly when it is a FEED word with code 3 (R54). -/
theorem decode_reservedState_iff (P : Params) (d : DispatchWord) (a : Args) :
    decode P d a = .error .reservedState ↔ d.extractLsb' 10 2 = Sel.feed ∧ d.extractLsb' 8 2 = StCode.reserved := by
  by_cases hf : d.extractLsb' 10 2 = Sel.feed
  · have ne : Sel.feed ≠ Sel.new := by decide
    simp [decode, hf, ne, decodeFeed_error_iff]
  · simp only [decode, hf, if_false, false_and, iff_false]
    split_ifs <;> simp

/-- Bits 8, 9 and 10 are set in a FEED word with state code 3 (R51, R53). -/
theorem getLsbD_of_reserved (d : DispatchWord) (hsel : d.extractLsb' 10 2 = 1) (hst : d.extractLsb' 8 2 = 3) :
    ∀ k ∈ [8, 9, 10], d.getLsbD k = true := by
  have bit8 := congrArg (BitVec.getLsbD · 0) hst
  have bit9 := congrArg (BitVec.getLsbD · 1) hst
  have bit10 := congrArg (BitVec.getLsbD · 0) hsel
  simp only [BitVec.getLsbD_extractLsb'] at bit8 bit9 bit10
  simp only [List.forall_mem_cons]
  exact ⟨bit8, bit9, bit10, List.forall_mem_nil _⟩

/-- A byte does not reach the selector and the state code. -/
theorem getLsbD_or_byte (c : DispatchWord) (b : Byte) (k : Nat) (h : 8 ≤ k) :
    (c ||| b.setWidth 12).getLsbD k = c.getLsbD k := by
  simp [BitVec.getLsbD_of_ge b k h]

/-- A row is missed by a word with a bit that the row wants clear. -/
theorem hits_eq_false_of_bit (r : TableRow) (d : DispatchWord) (k : Nat) (hd : d.getLsbD k = true)
    (hm : r.mask.getLsbD k = true) (hp : r.pat.getLsbD k = false) : r.hits d = false := by
  rw [TableRow.hits, beq_eq_false_iff_ne]
  intro hit
  rw [← hit, BitVec.getLsbD_and, hd, hm] at hp
  cases hp

/-- Every row of the table wants one of bits 8, 9 and 10 clear: NEW and ENCODE bit 10, the IDLE and COLLECTING rows bit 9,
the ESCAPING rows bit 8. -/
theorem tableRows_clear_bit (P : Params) :
    ∀ r ∈ tableRows P, ∃ k ∈ [8, 9, 10], r.mask.getLsbD k = true ∧ r.pat.getLsbD k = false := by
  have token (c : DispatchWord) (b : Byte) (k : Nat) (hk : k ∈ [8, 9, 10]) (hc : c.getLsbD k = false) :
      (c ||| b.setWidth 12).getLsbD k = false := by
    rw [getLsbD_or_byte c b k (by simp at hk; omega), hc]
  simp only [tableRows, List.forall_mem_append, List.forall_mem_cons]
  refine ⟨⟨⟨?new, ?idleStart, ?idleOther, ?collStart, ?collEscape, ?collData, List.forall_mem_nil _⟩, ?escTokens⟩,
    ?escData, ?encode, List.forall_mem_nil _⟩
  case new | encode => exact ⟨10, by decide, rfl, rfl⟩
  case idleOther | collData => exact ⟨9, by decide, rfl, rfl⟩
  case idleStart | collStart | collEscape => exact ⟨9, by decide, rfl, token _ _ 9 (by decide) rfl⟩
  case escData => exact ⟨8, by decide, rfl, rfl⟩
  case escTokens =>
    cases P.escPolicy with
    | tokenFirst =>
      simp only [List.forall_mem_cons]
      exact ⟨⟨8, by decide, rfl, token _ _ 8 (by decide) rfl⟩, ⟨8, by decide, rfl, token _ _ 8 (by decide) rfl⟩,
        List.forall_mem_nil _⟩
    | literal => exact List.forall_mem_nil _

theorem bestRow_eq_none (d : DispatchWord) (rs : List TableRow) (h : ∀ r ∈ rs, r.hits d = false) :
    bestRow d rs = none := by
  induction rs with
  | nil => rfl
  | cons r rs ih =>
    obtain ⟨hr, hrs⟩ := List.forall_mem_cons.1 h
    simp [bestRow, hr, ih hrs]

theorem tableDecode_reserved (P : Params) (d : DispatchWord) (a : Args) (hsel : d.extractLsb' 10 2 = 1)
    (hst : d.extractLsb' 8 2 = 3) : tableDecode P d a = none := by
  have misses : ∀ r ∈ tableRows P, r.hits d = false := fun r hr => by
    obtain ⟨k, hk, hm, hp⟩ := tableRows_clear_bit P r hr
    exact hits_eq_false_of_bit r d k (getLsbD_of_reserved d hsel hst k hk) hm hp
  rw [tableDecode, bestRow_eq_none d _ misses, Option.map_none]

/-- The word of a feed by the owner carries the instance's own state code (R53). -/
theorem ofFeed_word (s : State) (inst : Nat) (b : Byte) (D : Decoder) (hD : s.decoder? inst = some D) :
    (Request.ofFeed inst .owner b).word s = .ok (feedWord D.st.code b) := by
  have target : feedTarget inst .owner s = .ok D := (feedTarget_ok_iff inst .owner s D).2 ⟨rfl, hD⟩
  simp only [Request.word, Request.ofFeed, Args.ofInst, if_true, target]

theorem perform_reservedState (r : Request) (s : State) (d : DispatchWord) (hw : r.word s = .ok d)
    (hd : decode s.params d r.args = .error .reservedState) : perform r s = .fault .reservedState := by
  simp only [perform, hw, hd]

/-- Settles O49: the decoder's condition, the table's rows, and the word that a feed of such an instance forms. -/
theorem reservedStateCodeFaults : Obligations.ReservedStateCodeFaults := by
  refine ⟨decode_reservedState_iff, tableDecode_reserved, fun s inst D b rest hin hD hst => ?_⟩
  have word := ofFeed_word { s with inputs := rest } inst b D hD
  have rejected : decode s.params (feedWord D.st.code b) (Args.ofInst inst) = .error .reservedState :=
    (decode_reservedState_iff s.params _ _).2
      ⟨Laws.Selector.feedWord_selector _ _, by rw [feedWord_stateCode, hst]; rfl⟩
  rw [step, takeInput, hin]
  exact perform_reservedState _ _ _ word rejected

end Sys2Proof.Machine
end

section
/-! SUPPORT. Scope: that an operation never reads what is asked for after it (R42), so that where a stream is cut into chunks
cannot be observed (R96, R98), and that a step hands out at most one output (R49, R110). -/

namespace Sys2Proof.Machine

/-! ### An operation does not read what is asked for after it -/

/-- An answer, with what is asked for next replaced in its next state. -/
def Answer.withInputs (ins : List Input) : Answer → Answer
  | .next t => .next { t with inputs := ins }
  | .fault f => .fault f
  | .refused q => .refused q

theorem feedRow_withInputs (inst : Nat) (row : St) (fits : Params → Bool)
    (act : Params → Decoder → Decoder × List Event) (s : State) (ins : List Input) :
    feedRow inst row fits act { s with inputs := ins } = (feedRow inst row fits act s).withInputs ins := by
  simp only [feedRow, State.decoder?_withInputs]
  cases s.decoder? inst with
  | none => rfl
  | some D =>
    by_cases h : D.st = row ∧ fits s.params = true
    · simp only [if_pos h]
      rfl
    · simp only [if_neg h]
      rfl

/-- Every operation answers alike whatever is asked for after it. -/
theorem exec_withInputs (i : Instr) (s : State) (ins : List Input) :
    exec i { s with inputs := ins } = Answer.withInputs ins (exec i s) := by
  cases i with
  | new | encode | crc16 | stuff => rfl
  | feedIdleStart | feedIdleOther | feedCollStart | feedCollEscape | feedCollData | feedEscStart | feedEscEscape
  | feedEscData =>
    simp only [exec_feedIdleStart, exec_feedIdleOther, exec_feedCollStart, exec_feedCollEscape, exec_feedCollData,
      exec_feedEscStart, exec_feedEscEscape, exec_feedEscData]
    exact feedRow_withInputs _ _ _ _ s ins

/-- The word formed and the operation it selects do not depend on what is asked for afterwards either. -/
theorem perform_withInputs (r : Request) (s : State) (ins : List Input) :
    perform r { s with inputs := ins } = (perform r s).withInputs ins := by
  have word : r.word { s with inputs := ins } = r.word s := rfl
  simp only [perform, word]
  cases r.word s with
  | error f => rfl
  | ok d =>
    cases hd : decode s.params d r.args with
    | ok i => simpa only [hd] using exec_withInputs i s ins
    | error e => cases e <;> simp only [hd] <;> rfl

/-! ### Chunks -/

/-- A step takes a chunk's first byte; the rest of the chunk is asked for next (R41, R96). -/
theorem step_chunk_cons (s : State) (inst : Nat) (origin : Origin) (b : Byte) (bs : List Byte) (rest : List Input) :
    step { s with inputs := .chunk inst origin (b :: bs) :: rest } =
      (perform (.ofFeed inst origin b) s).withInputs (chunkRest inst origin bs rest) :=
  perform_withInputs _ s _

theorem chunkRest_of_ne_nil (inst : Nat) (origin : Origin) (bs : List Byte) (rest : List Input) (h : bs ≠ []) :
    chunkRest inst origin bs rest = .chunk inst origin bs :: rest := by
  cases bs with
  | nil => exact absurd rfl h
  | cons => rfl

/-- Two runs whose first steps differ only in what is asked for next end alike when their remainders do. -/
theorem run_succ_congr (k : Nat) (s₁ s₂ : State) (a : Answer) (ins₁ ins₂ : List Input)
    (h₁ : step s₁ = a.withInputs ins₁) (h₂ : step s₂ = a.withInputs ins₂)
    (h : ∀ t : State, run k { t with inputs := ins₁ } = run k { t with inputs := ins₂ }) :
    run (k + 1) s₁ = run (k + 1) s₂ := by
  simp only [run, h₁, h₂]
  cases a with
  | next t => exact h t
  | fault => rfl
  | refused => rfl

/-- Two non-empty chunks are one, for any number of steps that reaches beyond the first and however the feeds were made. -/
theorem run_chunk_append (n : Nat) (s : State) (inst : Nat) (origin : Origin) (x y : List Byte) (rest : List Input)
    (hx : x ≠ []) (hy : y ≠ []) :
    run (x.length + n) { s with inputs := .chunk inst origin x :: .chunk inst origin y :: rest } =
      run (x.length + n) { s with inputs := .chunk inst origin (x ++ y) :: rest } := by
  induction x generalizing s with
  | nil => exact absurd rfl hx
  | cons b bs ih =>
    rw [List.length_cons, Nat.add_right_comm]
    refine run_succ_congr _ _ _ _ _ _ (step_chunk_cons s inst origin b bs _)
      (step_chunk_cons s inst origin b (bs ++ y) rest) fun t => ?_
    by_cases hbs : bs = []
    · subst hbs
      rw [List.nil_append, chunkRest_of_ne_nil inst origin y rest hy]
      rfl
    · rw [chunkRest_of_ne_nil inst origin bs _ hbs,
        chunkRest_of_ne_nil inst origin (bs ++ y) rest (List.append_ne_nil_of_left_ne_nil hbs y)]
      exact ih t hbs

/-- Settles O19, by induction on the first chunk (`run_chunk_append`): its last byte leaves the second chunk to be asked
for. -/
theorem chunkingCannotBeObserved : Obligations.ChunkingCannotBeObserved :=
  fun s inst x y rest hx hy => run_chunk_append y.length s inst .owner x y rest hx hy

/-! ### At most one event a byte -/

/-- APPEND emits nothing but the one event it ends the frame with (R90 to R93). -/
theorem append_events_length_le (P : Params) (D : Decoder) (v : Byte) : (append P D v).2.length ≤ 1 := by
  rcases append_cases P D v with ⟨-, -, h⟩ | ⟨-, -, h⟩ | ⟨-, h⟩ <;> rw [h]
  · exact Nat.le_refl 1
  · exact Nat.zero_le 1
  · rcases lengthChecks_cases P { D with buf := D.buf ++ [v] } with ⟨-, h⟩ | ⟨-, h⟩ | ⟨-, -, h⟩ <;> rw [h]
    · rcases validate_cases P { D with buf := D.buf ++ [v] } with ⟨-, h⟩ | ⟨-, h⟩ <;> rw [h] <;> exact Nat.le_refl 1
    · exact Nat.le_refl 1
    · exact Nat.zero_le 1

/-- Whatever a FEED row does, it emits at most one event (R49). -/
theorem RowEffect.events_length_le {P : Params} {D : Decoder} {r : Decoder × List Event} (h : RowEffect P D r) :
    r.2.length ≤ 1 := by
  cases h with
  | opened | discarded | armed => exact Nat.zero_le 1
  | restarted | doubleEscape => exact Nat.le_refl 1
  | appended v => exact append_events_length_le P _ v

/-- The encoder and the internal rows hand out their one result, a FEED row its events (R49). -/
theorem exec_adds_at_most_one_output (i : Instr) (s t : State) (h : exec i s = .next t) :
    ∃ os, t.outputs = s.outputs ++ os ∧ os.length ≤ 1 := by
  rcases exec_cases i s t h with ⟨inst, -, rfl⟩ | ⟨o, -, -, rfl, -⟩ | ⟨inst, D, r, -, -, hr, rfl, -⟩
  · exact ⟨[], (List.append_nil _).symm, Nat.zero_le 1⟩
  · exact ⟨[o], rfl, Nat.le_refl 1⟩
  · exact ⟨r.2.map (Output.event inst), rfl, by simpa using hr.events_length_le⟩

/-- Only a step that runs an operation hands out anything (R110). -/
theorem step_adds_at_most_one_output (s t : State) (h : step s = .next t) :
    ∃ os, t.outputs = s.outputs ++ os ∧ os.length ≤ 1 := by
  rcases step_cases s t h with ⟨-, rfl⟩ | ⟨i, ins, hi⟩ | ⟨_, _, rest, -, rfl⟩ | ⟨inst, rest, -, rfl⟩
  · exact ⟨[], (List.append_nil _).symm, Nat.zero_le 1⟩
  · exact exec_adds_at_most_one_output i { s with inputs := ins } t hi
  · exact ⟨[], (List.append_nil _).symm, Nat.zero_le 1⟩
  · exact ⟨[], (List.append_nil _).symm, Nat.zero_le 1⟩

/-- What feeding a chunk's first byte and then the rest comes to (R96). -/
theorem feedChunk_cons_eq_some_iff (P : Params) (D : Decoder) (b : Byte) (bs : List Byte) (p : Decoder × List Event) :
    Decoder.feedChunk P D (b :: bs) = some p ↔
      ∃ r q, Decoder.feed P D b = some r ∧ Decoder.feedChunk P r.1 bs = some q ∧ (q.1, r.2 ++ q.2) = p := by
  rw [Decoder.feedChunk]
  cases Decoder.feed P D b with
  | none => simp
  | some r =>
    cases hq : Decoder.feedChunk P r.1 bs with
    | none => simp [hq]
    | some q => simp only [Option.some.injEq, exists_and_left, exists_eq_left', hq]

/-- One event for each byte at most, since each byte is one FEED step (R96). -/
theorem feedChunk_events_length_le (P : Params) (D : Decoder) (bs : List Byte) (p : Decoder × List Event)
    (h : Decoder.feedChunk P D bs = some p) : p.2.length ≤ bs.length := by
  induction bs generalizing D p with
  | nil => cases h; exact Nat.le_refl 0
  | cons b bs ih =>
    obtain ⟨r, q, hr, hq, rfl⟩ := (feedChunk_cons_eq_some_iff P D b bs p).1 h
    have first : r.2.length ≤ 1 := (feed_effect P D b r hr).events_length_le
    have others : q.2.length ≤ bs.length := ih r.1 q hq
    simp only [List.length_append, List.length_cons]
    omega

/-- Settles O35: the machine's steps by what an operation can do, the chunk by induction on its bytes. -/
theorem atMostOneEventPerByte : Obligations.AtMostOneEventPerByte :=
  ⟨step_adds_at_most_one_output, fun P D D' bs es h => feedChunk_events_length_le P D bs (D', es) h⟩

end Sys2Proof.Machine
end

section
/-! SUPPORT. Scope: the dispatch word and its three fields, the decoder by state code and byte (R51 to R55), the encoder as
its inverse, and the opcode table's rows of match and mask. -/

namespace Sys2Proof.Machine

/-! ### The fields of a dispatch word -/

@[simp] theorem feedWord_byte (st : BitVec 2) (b : Byte) : (feedWord st b).extractLsb' 0 8 = b := by
  unfold feedWord
  ext i hi
  rw [BitVec.getElem_extractLsb', BitVec.getLsbD_append, BitVec.getLsbD_append]
  simp [hi, show i < 10 by omega]

/-- A word is its selector, its state code and its byte (R51). -/
theorem append_fields (d : DispatchWord) :
    d.extractLsb' 10 2 ++ (d.extractLsb' 8 2 ++ d.extractLsb' 0 8) = d := by
  ext i hi
  simp only [← BitVec.getLsbD_eq_getElem, BitVec.getLsbD_append, BitVec.getLsbD_extractLsb']
  rcases Nat.lt_or_ge i 8 with h8 | h8
  · simp [h8, show i < 10 by omega]
  · rcases Nat.lt_or_ge i 10 with h10 | h10
    · simp [h10, show ¬ i < 8 by omega, show i - 8 < 2 by omega, show 8 + (i - 8) = i by omega]
    · simp [show ¬ i < 10 by omega, show i - 10 < 2 by omega, show 10 + (i - 10) = i by omega]

/-- A FEED word is made of its state code and its byte. -/
theorem feedWord_of_fields (d : DispatchWord) (h : d.extractLsb' 10 2 = Sel.feed) :
    feedWord (d.extractLsb' 8 2) (d.extractLsb' 0 8) = d := by
  rw [feedWord, ← h, append_fields]

/-- A selector is one of the four of R51. -/
theorem selector_cases (sel : BitVec 2) : sel = Sel.new ∨ sel = Sel.feed ∨ sel = Sel.encode ∨ sel = Sel.reserved := by
  decide +revert

/-- A state code is one of the four of R18. -/
theorem stateCode_cases (st : BitVec 2) :
    st = StCode.idle ∨ st = StCode.collecting ∨ st = StCode.escaping ∨ st = StCode.reserved := by
  decide +revert

/-! ### The decoder by selector (R51) -/

theorem decode_of_new (P : Params) (d : DispatchWord) (a : Args) (h : d.extractLsb' 10 2 = Sel.new) :
    decode P d a = .ok (.new a.inst) := by
  simp only [decode, h, if_true]

theorem decode_of_feed (P : Params) (d : DispatchWord) (a : Args) (h : d.extractLsb' 10 2 = Sel.feed) :
    decode P d a = decodeFeed P (d.extractLsb' 8 2) (d.extractLsb' 0 8) a.inst := by
  have ne : Sel.feed ≠ Sel.new := by decide
  simp only [decode, h, ne, if_false, if_true]

theorem decode_of_encode (P : Params) (d : DispatchWord) (a : Args) (h : d.extractLsb' 10 2 = Sel.encode) :
    decode P d a = .ok (.encode a.opcode a.payload) := by
  have ne₁ : Sel.encode ≠ Sel.new := by decide
  have ne₂ : Sel.encode ≠ Sel.feed := by decide
  simp only [decode, h, ne₁, ne₂, if_false, if_true]

theorem decode_of_reserved (P : Params) (d : DispatchWord) (a : Args) (h : d.extractLsb' 10 2 = Sel.reserved) :
    decode P d a = .error .reservedSelector := by
  have ne₁ : Sel.reserved ≠ Sel.new := by decide
  have ne₂ : Sel.reserved ≠ Sel.feed := by decide
  have ne₃ : Sel.reserved ≠ Sel.encode := by decide
  simp only [decode, h, ne₁, ne₂, ne₃, if_false]

@[simp] theorem decode_feedWord (P : Params) (st : BitVec 2) (b : Byte) (a : Args) :
    decode P (feedWord st b) a = decodeFeed P st b a.inst := by
  rw [decode_of_feed P _ a (Laws.Selector.feedWord_selector st b), feedWord_stateCode, feedWord_byte]

/-- A word is rejected for its selector exactly when that is the reserved one: a FEED word has another error. -/
theorem decode_reservedSelector_iff (P : Params) (d : DispatchWord) (a : Args) :
    decode P d a = .error .reservedSelector ↔ d.extractLsb' 10 2 = Sel.reserved := by
  rcases selector_cases (d.extractLsb' 10 2) with h | h | h | h
  · simp [decode_of_new P d a h, h, Sel.new, Sel.reserved]
  · simp [decode_of_feed P d a h, h, decodeFeed_error_iff, Sel.feed, Sel.reserved]
  · simp [decode_of_encode P d a h, h, Sel.encode, Sel.reserved]
  · simp [decode_of_reserved P d a h, h]

/-! ### The FEED rows by state code (R53, R55) -/

theorem decodeFeed_idle (P : Params) (b : Byte) (inst : Nat) :
    decodeFeed P StCode.idle b inst =
      .ok (if b = P.startToken then .feedIdleStart inst else .feedIdleOther inst b) := by
  unfold decodeFeed byteClass
  by_cases hs : b = P.startToken
  · simp [hs]
  · by_cases he : b = P.escapeToken
    · simp [hs, if_pos he]
    · simp [hs, he]

theorem decodeFeed_collecting (P : Params) (b : Byte) (inst : Nat) :
    decodeFeed P StCode.collecting b inst =
      .ok (if b = P.startToken then .feedCollStart inst
        else if b = P.escapeToken then .feedCollEscape inst else .feedCollData inst b) := by
  have ne : StCode.collecting ≠ StCode.idle := by decide
  unfold decodeFeed byteClass
  by_cases hs : b = P.startToken
  · simp [ne, hs]
  · by_cases he : b = P.escapeToken
    · simp [ne, hs, if_pos he]
    · simp [ne, hs, he]

theorem decodeFeed_escaping (P : Params) (b : Byte) (inst : Nat) :
    decodeFeed P StCode.escaping b inst =
      .ok (if P.escPolicy = .tokenFirst ∧ b = P.startToken then .feedEscStart inst
        else if P.escPolicy = .tokenFirst ∧ b = P.escapeToken then .feedEscEscape inst else .feedEscData inst b) := by
  have ne₁ : StCode.escaping ≠ StCode.idle := by decide
  have ne₂ : StCode.escaping ≠ StCode.collecting := by decide
  unfold decodeFeed byteClass
  cases hp : P.escPolicy with
  | literal => simp [ne₁, ne₂]
  | tokenFirst =>
    by_cases hs : b = P.startToken
    · simp [ne₁, ne₂, hs]
    · by_cases he : b = P.escapeToken
      · simp [ne₁, ne₂, hs, if_pos he]
      · simp [ne₁, ne₂, hs, he]

theorem decodeFeed_reserved (P : Params) (b : Byte) (inst : Nat) :
    decodeFeed P StCode.reserved b inst = .error .reservedState :=
  (decodeFeed_error_iff P _ b inst _).2 ⟨rfl, rfl⟩

/-! ### Decode and encode -/

/-- Settles O44, row by row: a FEED word gives its state code and byte back, and well-formedness says that the byte selects
the row. -/
theorem decodeOfEncodeIsTheOperation : Obligations.DecodeOfEncodeIsTheOperation := by
  intro P i d a tokens wf h
  cases i with
  | new inst =>
    cases h
    exact decode_of_new P _ _ (Laws.Selector.selWord_selector _)
  | encode opcode payload =>
    cases h
    exact decode_of_encode P _ _ (Laws.Selector.selWord_selector _)
  | crc16 | stuff => cases h
  | feedIdleStart inst =>
    cases h
    simp [decodeFeed_idle, Args.ofInst]
  | feedIdleOther inst b =>
    cases h
    have other : b ≠ P.startToken := by simpa [Instr.wf] using wf
    simp [decodeFeed_idle, other, Args.ofInst]
  | feedCollStart inst =>
    cases h
    simp [decodeFeed_collecting, Args.ofInst]
  | feedCollEscape inst =>
    cases h
    simp [decodeFeed_collecting, tokens.symm, Args.ofInst]
  | feedCollData inst b =>
    cases h
    obtain ⟨hs, he⟩ : b ≠ P.startToken ∧ b ≠ P.escapeToken := by simpa [Instr.wf] using wf
    simp [decodeFeed_collecting, hs, he, Args.ofInst]
  | feedEscStart inst =>
    cases h
    have policy : P.escPolicy = .tokenFirst := by simpa [Instr.wf] using wf
    simp [decodeFeed_escaping, policy, Args.ofInst]
  | feedEscEscape inst =>
    cases h
    have policy : P.escPolicy = .tokenFirst := by simpa [Instr.wf] using wf
    simp [decodeFeed_escaping, policy, tokens.symm, Args.ofInst]
  | feedEscData inst b =>
    cases h
    have data : P.escPolicy = .literal ∨ b ≠ P.startToken ∧ b ≠ P.escapeToken := by simpa [Instr.wf] using wf
    rcases data with policy | ⟨hs, he⟩
    · simp [decodeFeed_escaping, policy, Args.ofInst]
    · simp [decodeFeed_escaping, hs, he, Args.ofInst]

/-- A FEED row that is selected is well formed, and its word is the one that selected it. -/
theorem encode_of_decodeFeed (P : Params) (st : BitVec 2) (b : Byte) (inst : Nat) (i : Instr)
    (h : decodeFeed P st b inst = .ok i) : i.wf P = true ∧ encode P i = some (feedWord st b, Args.ofInst inst) := by
  rcases stateCode_cases st with rfl | rfl | rfl | rfl
  · rw [decodeFeed_idle] at h
    split_ifs at h with hs <;> cases h
    · exact ⟨rfl, by rw [hs]; rfl⟩
    · exact ⟨by simpa [Instr.wf] using hs, rfl⟩
  · rw [decodeFeed_collecting] at h
    split_ifs at h with hs he <;> cases h
    · exact ⟨rfl, by rw [hs]; rfl⟩
    · exact ⟨rfl, by rw [he]; rfl⟩
    · exact ⟨by simpa [Instr.wf] using And.intro hs he, rfl⟩
  · rw [decodeFeed_escaping] at h
    split_ifs at h with hs he <;> cases h
    · exact ⟨by simpa [Instr.wf] using hs.1, by rw [hs.2]; rfl⟩
    · exact ⟨by simpa [Instr.wf] using he.1, by rw [he.2]; rfl⟩
    · refine ⟨?_, rfl⟩
      cases hp : P.escPolicy with
      | literal => simp [Instr.wf, hp]
      | tokenFirst => simp_all [Instr.wf]
  · rw [decodeFeed_reserved] at h
    cases h

/-- Settles O45, by the selector: a FEED by `encode_of_decodeFeed`, and NEW and ENCODE by the word with bits 9:0 zero. -/
theorem encodeOfDecodeIsTheWord : Obligations.EncodeOfDecodeIsTheWord := by
  intro P d a i h
  rcases selector_cases (d.extractLsb' 10 2) with hsel | hsel | hsel | hsel
  · rw [decode_of_new P d a hsel] at h
    cases h
    refine ⟨rfl, _, _, rfl, decode_of_new P _ _ (Laws.Selector.selWord_selector _), fun hf => ?_⟩
    exact absurd (hsel.symm.trans hf) (by decide)
  · rw [decode_of_feed P d a hsel] at h
    obtain ⟨wf, word⟩ := encode_of_decodeFeed P _ _ _ i h
    exact ⟨wf, _, _, word, (decode_feedWord P _ _ _).trans h, fun _ => feedWord_of_fields d hsel⟩
  · rw [decode_of_encode P d a hsel] at h
    cases h
    refine ⟨rfl, _, _, rfl, decode_of_encode P _ _ (Laws.Selector.selWord_selector _), fun hf => ?_⟩
    exact absurd (hsel.symm.trans hf) (by decide)
  · rw [decode_of_reserved P d a hsel] at h
    cases h

/-- Settles O47, from the rows by state code. -/
theorem feedRowsByStateAndByte : Obligations.FeedRowsByStateAndByte := by
  intro P a b tokens policy
  have idle (b : Byte) : decode P (feedWord 0 b) a = decodeFeed P StCode.idle b a.inst := decode_feedWord P _ b a
  have collecting (b : Byte) : decode P (feedWord 1 b) a = decodeFeed P StCode.collecting b a.inst :=
    decode_feedWord P _ b a
  have escaping (b : Byte) : decode P (feedWord 2 b) a = decodeFeed P StCode.escaping b a.inst :=
    decode_feedWord P _ b a
  simp only [idle, collecting, escaping, decodeFeed_idle, decodeFeed_collecting, decodeFeed_escaping, policy, true_and,
    if_true, tokens.symm, if_false, Params.IsToken, not_or]
  exact ⟨fun hs => by rw [if_neg hs], fun ⟨hs, he⟩ => by rw [if_neg hs, if_neg he],
    fun ⟨hs, he⟩ => by rw [if_neg hs, if_neg he]⟩

/-- Settles O48: the row of ESCAPING under the policy LITERAL. -/
theorem literalPolicyHasOneEscapingRow : Obligations.LiteralPolicyHasOneEscapingRow := by
  intro P d a policy hsel hst
  have escaping : d.extractLsb' 8 2 = StCode.escaping := hst
  rw [decode_of_feed P d a hsel, escaping, decodeFeed_escaping]
  simp [policy]

/-- Settles O51, by evaluating the decoder on each word. -/
theorem opcodeTableWordsDecode : Obligations.OpcodeTableWordsDecode := by
  unfold Obligations.OpcodeTableWordsDecode
  decide

end Sys2Proof.Machine
end

section
/-! SUPPORT. Scope: the opcode table as rows of match and mask (R51, R53): which words a row matches, said in the fields of
a word, and that the row with the most mask bits set is the decoder's. -/

namespace Sys2Proof.Machine

/-! ### The three kinds of row -/

/-- A row that fixes the selector alone. -/
def selectorRow (sel : BitVec 2) (f : Args → Byte → Instr) : TableRow := ⟨selWord sel, 0xC00, f⟩

/-- A FEED row that fixes the state code and takes any byte. -/
def stateRow (st : BitVec 2) (f : Args → Byte → Instr) : TableRow := ⟨feedWord st 0, 0xF00, f⟩

/-- A FEED row that fixes the state code and the byte. -/
def byteRow (st : BitVec 2) (b : Byte) (f : Args → Byte → Instr) : TableRow := ⟨feedWord st b, 0xFFF, f⟩

/-- A FEED row that fixes the byte has more mask bits set than one that does not. -/
theorem maskBits_stateRow_lt (st st' : BitVec 2) (b : Byte) (f g : Args → Byte → Instr) :
    maskBits (stateRow st f).mask < maskBits (byteRow st' b g).mask :=
  show maskBits 0xF00 < maskBits 0xFFF by decide

theorem dispatchWord_ext_iff (d e : DispatchWord) : d = e ↔ d.extractLsb' 10 2 = e.extractLsb' 10 2 ∧
    d.extractLsb' 8 2 = e.extractLsb' 8 2 ∧ d.extractLsb' 0 8 = e.extractLsb' 0 8 := by
  refine ⟨fun h => h ▸ ⟨rfl, rfl, rfl⟩, fun ⟨hsel, hst, hb⟩ => ?_⟩
  rw [← append_fields d, ← append_fields e, hsel, hst, hb]

theorem selWord_low (sel : BitVec 2) :
    (selWord sel).extractLsb' 8 2 = 0 ∧ (selWord sel).extractLsb' 0 8 = 0 := by
  decide +revert

/-- Matching a row, field by field. -/
theorem hits_iff (r : TableRow) (d : DispatchWord) : r.hits d = true ↔
    d.extractLsb' 10 2 &&& r.mask.extractLsb' 10 2 = r.pat.extractLsb' 10 2 ∧
    d.extractLsb' 8 2 &&& r.mask.extractLsb' 8 2 = r.pat.extractLsb' 8 2 ∧
    d.extractLsb' 0 8 &&& r.mask.extractLsb' 0 8 = r.pat.extractLsb' 0 8 := by
  rw [TableRow.hits, beq_iff_eq, dispatchWord_ext_iff, BitVec.extractLsb'_and, BitVec.extractLsb'_and,
    BitVec.extractLsb'_and]

@[simp] theorem selectorRow_hits (sel : BitVec 2) (f : Args → Byte → Instr) (d : DispatchWord) :
    (selectorRow sel f).hits d = true ↔ d.extractLsb' 10 2 = sel := by
  have mask : (selectorRow sel f).mask.extractLsb' 10 2 = BitVec.allOnes 2 ∧
      (selectorRow sel f).mask.extractLsb' 8 2 = 0 ∧ (selectorRow sel f).mask.extractLsb' 0 8 = 0 := by
    simp only [selectorRow]
    decide
  obtain ⟨hsel, hst, hb⟩ := mask
  obtain ⟨st0, b0⟩ := selWord_low sel
  rw [hits_iff, hsel, hst, hb, BitVec.and_allOnes]
  simp [selectorRow, Laws.Selector.selWord_selector, st0, b0]

@[simp] theorem stateRow_hits (st : BitVec 2) (f : Args → Byte → Instr) (d : DispatchWord) :
    (stateRow st f).hits d = true ↔ d.extractLsb' 10 2 = Sel.feed ∧ d.extractLsb' 8 2 = st := by
  have mask : (stateRow st f).mask.extractLsb' 10 2 = BitVec.allOnes 2 ∧
      (stateRow st f).mask.extractLsb' 8 2 = BitVec.allOnes 2 ∧ (stateRow st f).mask.extractLsb' 0 8 = 0 := by
    simp only [stateRow]
    decide
  obtain ⟨hsel, hst, hb⟩ := mask
  rw [hits_iff, hsel, hst, hb, BitVec.and_allOnes, BitVec.and_allOnes]
  simp [stateRow, Laws.Selector.feedWord_selector, feedWord_stateCode]

@[simp] theorem byteRow_hits (st : BitVec 2) (b : Byte) (f : Args → Byte → Instr) (d : DispatchWord) :
    (byteRow st b f).hits d = true ↔
      d.extractLsb' 10 2 = Sel.feed ∧ d.extractLsb' 8 2 = st ∧ d.extractLsb' 0 8 = b := by
  have full : (byteRow st b f).mask = BitVec.allOnes 12 := rfl
  rw [TableRow.hits, beq_iff_eq, full, BitVec.and_allOnes, dispatchWord_ext_iff]
  simp [byteRow, Laws.Selector.feedWord_selector, feedWord_stateCode]

/-! ### The rows of one state code -/

/-- The rows of a state code: one for each byte in `tokens`, and one for any other byte. -/
def feedRows (st : BitVec 2) (tokens : List (Byte × (Args → Byte → Instr))) (other : Args → Byte → Instr) :
    List TableRow :=
  tokens.map (fun t => byteRow st t.1 t.2) ++ [stateRow st other]

/-- The operation that the rows of a state code give a byte: its own row's, else that of any other byte. -/
def selectByByte (tokens : List (Byte × (Args → Byte → Instr))) (other : Args → Byte → Instr) (b : Byte) :
    Args → Byte → Instr :=
  match tokens with
  | [] => other
  | t :: ts => if b = t.1 then t.2 else selectByByte ts other b

/-- Rows that a word misses do not matter. -/
theorem bestRow_filter (d : DispatchWord) (rs : List TableRow) :
    bestRow d (rs.filter fun r => r.hits d) = bestRow d rs := by
  induction rs with
  | nil => rfl
  | cons r rs ih =>
    cases hr : r.hits d with
    | false => simpa [bestRow, hr] using ih
    | true => simp [bestRow, hr, ih]

/-- The rows of a state code are missed by a word that is no FEED or has another state code. -/
theorem filter_feedRows_eq_nil (st : BitVec 2) (tokens : List (Byte × (Args → Byte → Instr)))
    (other : Args → Byte → Instr) (d : DispatchWord)
    (h : d.extractLsb' 10 2 = Sel.feed → d.extractLsb' 8 2 ≠ st) :
    (feedRows st tokens other).filter (fun r => r.hits d) = [] := by
  simp only [List.filter_eq_nil_iff, feedRows, List.mem_append, List.mem_map, List.mem_singleton]
  rintro r (⟨t, -, rfl⟩ | rfl) hit
  · obtain ⟨hsel, hst, -⟩ := (byteRow_hits st t.1 t.2 d).1 hit
    exact h hsel hst
  · obtain ⟨hsel, hst⟩ := (stateRow_hits st other d).1 hit
    exact h hsel hst

/-- The best of the rows of a state code: one that fixes the byte wins over the one for any other byte, and of two the
earlier. -/
theorem bestRow_feedRows (st : BitVec 2) (tokens : List (Byte × (Args → Byte → Instr)))
    (other : Args → Byte → Instr) (d : DispatchWord) (hsel : d.extractLsb' 10 2 = Sel.feed)
    (hst : d.extractLsb' 8 2 = st) :
    ∃ r, bestRow d (feedRows st tokens other) = some r ∧
      r.instr = selectByByte tokens other (d.extractLsb' 0 8) ∧
      ∀ b f, maskBits r.mask ≤ maskBits (byteRow st b f).mask := by
  induction tokens with
  | nil =>
    refine ⟨stateRow st other, ?_, rfl, fun b f => (maskBits_stateRow_lt st st b other f).le⟩
    simp [feedRows, bestRow, hsel, hst]
  | cons t ts ih =>
    obtain ⟨r, best, instr, bits⟩ := ih
    simp only [feedRows, List.map_cons, List.cons_append] at best ⊢
    by_cases hb : d.extractLsb' 0 8 = t.1
    · refine ⟨byteRow st t.1 t.2, ?_, by simp [selectByByte, hb, byteRow], fun b f => le_rfl⟩
      simp [bestRow, hsel, hst, hb, best, (bits t.1 t.2).not_gt]
    · exact ⟨r, by simp [bestRow, hb, best], by simpa [selectByByte, hb] using instr, bits⟩

/-- The operation that the rows of a state code give a word of that code. -/
theorem map_bestRow_feedRows (st : BitVec 2) (tokens : List (Byte × (Args → Byte → Instr)))
    (other : Args → Byte → Instr) (d : DispatchWord) (hsel : d.extractLsb' 10 2 = Sel.feed)
    (hst : d.extractLsb' 8 2 = st) (a : Args) (b : Byte) :
    (bestRow d (feedRows st tokens other)).map (fun r => r.instr a b) =
      some (selectByByte tokens other (d.extractLsb' 0 8) a b) := by
  obtain ⟨r, best, instr, -⟩ := bestRow_feedRows st tokens other d hsel hst
  rw [best, Option.map_some, instr]

/-! ### The table -/

/-- The token rows of ESCAPING exist under TOKEN_FIRST only (R55). -/
def escapingTokens (P : Params) : List (Byte × (Args → Byte → Instr)) :=
  match P.escPolicy with
  | .tokenFirst =>
    [(P.startToken, fun a _ => .feedEscStart a.inst), (P.escapeToken, fun a _ => .feedEscEscape a.inst)]
  | .literal => []

/-- A byte is or-ed into the match of its row. -/
theorem feedWord_eq_or (st : BitVec 2) (b : Byte) : feedWord st b = feedWord st 0 ||| b.setWidth 12 := by
  refine BitVec.eq_of_getLsbD_eq fun i _ => ?_
  simp only [feedWord, BitVec.getLsbD_or, BitVec.getLsbD_append, BitVec.getLsbD_setWidth]
  by_cases h8 : i < 8
  · simp [h8, show i < 12 by omega, show i < 10 by omega]
  · simp [h8, BitVec.getLsbD_of_ge b i (by omega)]

/-- The opcode table, by selector and state code. -/
theorem tableRows_eq (P : Params) : tableRows P =
    [selectorRow Sel.new fun a _ => .new a.inst] ++
    feedRows StCode.idle [(P.startToken, fun a _ => .feedIdleStart a.inst)] (fun a b => .feedIdleOther a.inst b) ++
    feedRows StCode.collecting [(P.startToken, fun a _ => .feedCollStart a.inst),
      (P.escapeToken, fun a _ => .feedCollEscape a.inst)] (fun a b => .feedCollData a.inst b) ++
    feedRows StCode.escaping (escapingTokens P) (fun a b => .feedEscData a.inst b) ++
    [selectorRow Sel.encode fun a _ => .encode a.opcode a.payload] := by
  cases hp : P.escPolicy <;>
    simp only [tableRows, escapingTokens, hp, feedRows, byteRow, List.map_cons, List.map_nil,
      feedWord_eq_or _ P.startToken, feedWord_eq_or _ P.escapeToken] <;> rfl

theorem filter_selectorRow (sel : BitVec 2) (f : Args → Byte → Instr) (d : DispatchWord) :
    [selectorRow sel f].filter (fun r => r.hits d) = if d.extractLsb' 10 2 = sel then [selectorRow sel f] else [] := by
  simp [List.filter_cons]

/-- The table on a FEED word: the rows of its own state code are the only ones it matches. -/
theorem tableDecode_of_feed (P : Params) (d : DispatchWord) (a : Args) (hf : d.extractLsb' 10 2 = Sel.feed) :
    tableDecode P d a = (decodeFeed P (d.extractLsb' 8 2) (d.extractLsb' 0 8) a.inst).toOption := by
  have miss (st tokens other) (h : d.extractLsb' 8 2 ≠ st) :
      (feedRows st tokens other).filter (fun r => r.hits d) = [] :=
    filter_feedRows_eq_nil st tokens other d fun _ => h
  have best (st tokens other) (h : d.extractLsb' 8 2 = st) :=
    map_bestRow_feedRows st tokens other d hf h a (d.extractLsb' 0 8)
  rw [tableDecode, ← bestRow_filter, tableRows_eq]
  simp only [List.filter_append, filter_selectorRow]
  rw [if_neg (by rw [hf]; decide), if_neg (by rw [hf]; decide), List.nil_append, List.append_nil]
  rcases stateCode_cases (d.extractLsb' 8 2) with hst | hst | hst | hst
  · rw [miss StCode.collecting _ _ (by rw [hst]; decide), miss StCode.escaping _ _ (by rw [hst]; decide),
      List.append_nil, List.append_nil, bestRow_filter, best _ _ _ hst, hst, decodeFeed_idle]
    simp only [selectByByte, Except.toOption]
    split_ifs <;> rfl
  · rw [miss StCode.idle _ _ (by rw [hst]; decide), miss StCode.escaping _ _ (by rw [hst]; decide),
      List.nil_append, List.append_nil, bestRow_filter, best _ _ _ hst, hst, decodeFeed_collecting]
    simp only [selectByByte, Except.toOption]
    split_ifs <;> rfl
  · rw [miss StCode.idle _ _ (by rw [hst]; decide), miss StCode.collecting _ _ (by rw [hst]; decide),
      List.nil_append, List.nil_append, bestRow_filter, best _ _ _ hst, hst, decodeFeed_escaping]
    cases hp : P.escPolicy with
    | literal => simp [escapingTokens, hp, selectByByte, Except.toOption]
    | tokenFirst =>
      simp only [escapingTokens, hp, selectByByte, Except.toOption, true_and]
      split_ifs <;> rfl
  · rw [miss StCode.idle _ _ (by rw [hst]; decide), miss StCode.collecting _ _ (by rw [hst]; decide),
      miss StCode.escaping _ _ (by rw [hst]; decide), hst, decodeFeed_reserved]
    rfl

/-- Of the rows a word matches, the one with the most mask bits set is the decoder's. -/
theorem tableDecode_eq (P : Params) (d : DispatchWord) (a : Args) : tableDecode P d a = (decode P d a).toOption := by
  by_cases hf : d.extractLsb' 10 2 = Sel.feed
  · rw [tableDecode_of_feed P d a hf, decode_of_feed P d a hf]
  · have miss (st tokens other) : (feedRows st tokens other).filter (fun r => r.hits d) = [] :=
      filter_feedRows_eq_nil st tokens other d fun h => absurd h hf
    rw [tableDecode, ← bestRow_filter, tableRows_eq]
    simp only [List.filter_append, filter_selectorRow, miss, List.append_nil]
    rcases selector_cases (d.extractLsb' 10 2) with hsel | hsel | hsel | hsel
    · have hit := (selectorRow_hits Sel.new (fun a _ => .new a.inst) d).2 hsel
      rw [decode_of_new P d a hsel, if_pos hsel, if_neg (by rw [hsel]; decide)]
      simp only [List.append_nil, bestRow, hit, if_true]
      rfl
    · exact absurd hsel hf
    · have hit := (selectorRow_hits Sel.encode (fun a _ => .encode a.opcode a.payload) d).2 hsel
      rw [decode_of_encode P d a hsel, if_neg (by rw [hsel]; decide), if_pos hsel]
      simp only [List.nil_append, bestRow, hit, if_true]
      rfl
    · rw [decode_of_reserved P d a hsel, if_neg (by rw [hsel]; decide), if_neg (by rw [hsel]; decide)]
      rfl

/-- Settles O46: the table and the decoder give the same operation (`tableDecode_eq`). -/
theorem decoderFollowsTheOpcodeTable : Obligations.DecoderFollowsTheOpcodeTable := by
  intro P d a i _
  rw [tableDecode_eq]
  cases decode P d a <;> simp [Except.toOption]

end Sys2Proof.Machine
end

section
/-! SUPPORT. Scope: what a step does with the request asked for next (R51, R53): it runs the operation the word decodes to, it
refuses the reserved selector, and a FEED row stops on an instance, a state or a byte of another row. -/

namespace Sys2Proof.Machine

/-! ### Requests -/

theorem perform_ok (r : Request) (s : State) (d : DispatchWord) (i : Instr) (hw : r.word s = .ok d)
    (hd : decode s.params d r.args = .ok i) : perform r s = exec i s := by
  simp only [perform, hw, hd]

theorem perform_reservedSelector (r : Request) (s : State) (hsel : r.sel = Sel.reserved) :
    perform r s = .refused .reservedSelector := by
  have ne : Sel.reserved ≠ Sel.feed := by decide
  have word : r.word s = .ok (selWord Sel.reserved) := by simp only [Request.word, hsel, ne, if_false]
  have rejected := decode_of_reserved s.params _ r.args (Laws.Selector.selWord_selector Sel.reserved)
  simp only [perform, word, rejected]

/-- A request with selector NEW creates its decoder (R78). -/
theorem perform_ofNew (s : State) (inst : Nat) : perform (.ofNew inst) s = .next (s.setDecoder inst Decoder.reset) :=
  perform_ok (.ofNew inst) s (selWord Sel.new) (.new inst) rfl
    (decode_of_new _ _ _ (Laws.Selector.selWord_selector _))

/-- A request with selector ENCODE hands out the result (R74). -/
theorem perform_ofEncode (s : State) (opcode : U16) (payload : List Byte) :
    perform (.ofEncode opcode payload) s = .next (s.putOut (.encoded (encodeFrame s.params opcode payload))) :=
  perform_ok (.ofEncode opcode payload) s (selWord Sel.encode) (.encode opcode payload) rfl
    (decode_of_encode _ _ _ (Laws.Selector.selWord_selector _))

theorem step_of_op (s : State) (r : Request) (rest : List Input) (h : s.inputs = .op r :: rest) :
    step s = perform r { s with inputs := rest } := by
  simp only [step, takeInput, h]

/-- A feed of an instance that does not exist faults before a word is formed (R124, R125). -/
theorem perform_ofFeed_noDecoder (s : State) (inst : Nat) (b : Byte) (h : s.decoder? inst = none) :
    perform (.ofFeed inst .owner b) s = .fault .noDecoder := by
  simp only [perform, Request.word, Request.ofFeed, Args.ofInst, if_true, feedTarget, h]

/-- Settles O50: the decoder by `decode_reservedSelector_iff`, the step by the word of the request. -/
theorem reservedSelectorIsRefused : Obligations.ReservedSelectorIsRefused := by
  refine ⟨decode_reservedSelector_iff, fun s r rest hin hsel => ?_⟩
  rw [step_of_op s r rest hin]
  exact perform_reservedSelector r _ hsel

/-- Settles O52: an operation's word is decoded and run (`perform_ok`), and a chunk's first byte forms the word of a FEED in
the instance's own state (`ofFeed_word`). -/
theorem stepRunsTheDecodedOperation : Obligations.StepRunsTheDecodedOperation := by
  refine ⟨fun s r rest d i hin hw hd => ?op, fun s inst b bs rest D i hin hD hd => ?chunk⟩
  case op =>
    rw [step_of_op s r rest hin]
    exact perform_ok r { s with inputs := rest } d i hw hd
  case chunk =>
    have left : chunkRest inst .owner bs rest = if bs = [] then rest else .chunk inst .owner bs :: rest := by
      cases bs <;> rfl
    rw [step, takeInput, hin, ← left]
    exact perform_ok _ _ _ i (ofFeed_word _ inst b D hD) hd

/-! ### Where a FEED row stops -/

section
variable (inst : Nat) (row : St) (fits : Params → Bool) (act : Params → Decoder → Decoder × List Event) (s : State)

theorem feedRow_noDecoder (h : s.decoder? inst = none) : feedRow inst row fits act s = .fault .noDecoder := by
  simp only [feedRow, h]

theorem feedRow_rowMismatch (D : Decoder) (hD : s.decoder? inst = some D) (h : D.st = row → fits s.params = false) :
    feedRow inst row fits act s = .fault .rowMismatch := by
  have unfit : ¬ (D.st = row ∧ fits s.params = true) := fun ⟨hst, hf⟩ => by simp [h hst] at hf
  simp only [feedRow, hD, if_neg unfit]

end

/-- An operation that is a FEED row stops on an instance that does not exist and on one in another row's state. -/
theorem exec_feedRow_stops {i : Instr} {s : State} {inst : Nat} {row : St} {fits : Params → Bool}
    {act : Params → Decoder → Decoder × List Event} (h : exec i s = feedRow inst row fits act s) :
    (s.decoder? inst = none → exec i s = .fault .noDecoder) ∧
    ∀ D, s.decoder? inst = some D → D.st ≠ row → exec i s = .fault .rowMismatch := by
  rw [h]
  exact ⟨feedRow_noDecoder inst row fits act s,
    fun D hD hne => feedRow_rowMismatch inst row fits act s D hD fun hst => absurd hst hne⟩

/-- Settles O12: each of the eight rows is a `feedRow` of its state, and a byte of another row does not fit. -/
theorem rowOfAnotherStateFaults : Obligations.RowOfAnotherStateFaults := by
  refine ⟨fun s inst b i row h => ?state,
    fun s inst b D hD => ⟨fun hb => ?idle, fun hb => ?collecting, fun hp hb => ?escaping⟩⟩
  case state =>
    simp only [List.mem_cons, Prod.mk.injEq, List.not_mem_nil, or_false] at h
    rcases h with ⟨rfl, rfl⟩ | ⟨rfl, rfl⟩ | ⟨rfl, rfl⟩ | ⟨rfl, rfl⟩ | ⟨rfl, rfl⟩ | ⟨rfl, rfl⟩ | ⟨rfl, rfl⟩ | ⟨rfl, rfl⟩
    · exact exec_feedRow_stops (exec_feedIdleStart inst s)
    · exact exec_feedRow_stops (exec_feedIdleOther inst b s)
    · exact exec_feedRow_stops (exec_feedCollStart inst s)
    · exact exec_feedRow_stops (exec_feedCollEscape inst s)
    · exact exec_feedRow_stops (exec_feedCollData inst b s)
    · exact exec_feedRow_stops (exec_feedEscStart inst s)
    · exact exec_feedRow_stops (exec_feedEscEscape inst s)
    · exact exec_feedRow_stops (exec_feedEscData inst b s)
  case idle =>
    rw [exec_feedIdleOther]
    exact feedRow_rowMismatch inst _ _ _ s D hD fun _ => by simp [hb]
  case collecting =>
    rw [exec_feedCollData]
    exact feedRow_rowMismatch inst _ _ _ s D hD fun _ => by rcases hb with rfl | rfl <;> simp
  case escaping =>
    rw [exec_feedEscData]
    exact feedRow_rowMismatch inst _ _ _ s D hD fun _ => by rcases hb with rfl | rfl <;> simp [hp]

end Sys2Proof.Machine
end

section
/-! SUPPORT. Scope: the wire bytes of a frame (R57, R59, R73 to R77): when ENCODE is Ok, how long its bytes are, and that the
start token stands at their head only. -/

namespace Sys2Proof.Machine

/-! ### STUFF -/

@[simp] theorem stuff_append (P : Params) (xs ys : List Byte) : stuff P (xs ++ ys) = stuff P xs ++ stuff P ys := by
  induction xs with
  | nil => rfl
  | cons x xs ih => simp only [List.cons_append, stuff, ih, List.append_assoc]

theorem stuff_singleton (P : Params) (x : Byte) : stuff P [x] = stuffByte P x := by simp [stuff]

theorem stuffByte_of_token {P : Params} {x : Byte} (h : P.IsToken x) :
    stuffByte P x = [P.escapeToken, x ^^^ P.escapeMask] := if_pos h

theorem stuffByte_of_not_token {P : Params} {x : Byte} (h : ¬ P.IsToken x) : stuffByte P x = [x] := if_neg h

/-- Stuffing adds one byte for each token byte (R73). -/
theorem stuff_length (P : Params) (xs : List Byte) :
    (stuff P xs).length = xs.length + xs.countP (fun x => P.IsToken x) := by
  induction xs with
  | nil => rfl
  | cons x xs ih =>
    by_cases hx : P.IsToken x
    · simp only [stuff, List.length_append, stuffByte_of_token hx, List.countP_cons, hx, ih, List.length_cons,
        List.length_nil, decide_true, if_true]
      omega
    · simp only [stuff, List.length_append, stuffByte_of_not_token hx, List.countP_cons, hx, ih, List.length_cons,
        List.length_nil, decide_false, Bool.false_eq_true, if_false]
      omega

/-- A masked token is no token (R11). -/
theorem not_isToken_masked {P : Params} (h : P.Legal) {x : Byte} (hx : P.IsToken x) :
    ¬ P.IsToken (x ^^^ P.escapeMask) := by
  rcases hx with rfl | rfl
  · exact h.start_escaped
  · exact h.escape_escaped

/-- Stuffed bytes hold no start token (R73 with R11). -/
theorem startToken_not_mem_stuff {P : Params} (h : P.Legal) (xs : List Byte) : P.startToken ∉ stuff P xs := by
  induction xs with
  | nil => exact List.not_mem_nil
  | cons x xs ih =>
    rw [stuff, List.mem_append, not_or]
    refine ⟨?_, ih⟩
    by_cases hx : P.IsToken x
    · rw [stuffByte_of_token hx, List.mem_pair, not_or]
      exact ⟨h.tokens_differ, fun he => not_isToken_masked h hx (.inl he.symm)⟩
    · rw [stuffByte_of_not_token hx, List.mem_singleton]
      exact fun he => hx (.inl he.symm)

/-! ### ENCODE -/

theorem unescapedFrame_length (P : Params) (opcode : U16) (payload : List Byte) :
    (unescapedFrame P opcode payload).length = 6 + payload.length := by
  simp only [unescapedFrame, headerAndPayload, List.length_append, bytesLE16_length]
  omega

theorem encodeFrame_of_tooLong (P : Params) (opcode : U16) (payload : List Byte) (h : payloadTooLong payload) :
    encodeFrame P opcode payload = .payloadTooLarge := if_pos h

theorem encodeFrame_of_not_tooLong (P : Params) (opcode : U16) (payload : List Byte) (h : ¬ payloadTooLong payload) :
    encodeFrame P opcode payload = .ok (wireBytes P opcode payload) := if_neg h

/-- ENCODE is Ok only of the frame's wire bytes. -/
theorem encodeFrame_eq_ok {P : Params} {opcode : U16} {payload w : List Byte}
    (h : encodeFrame P opcode payload = .ok w) : w = wireBytes P opcode payload := by
  by_cases hl : payloadTooLong payload
  · rw [encodeFrame_of_tooLong P opcode payload hl] at h
    cases h
  · rw [encodeFrame_of_not_tooLong P opcode payload hl] at h
    exact (EncodeResult.ok.inj h).symm

/-- Settles O24: the start token, then the stuffed frame of 6 + L bytes, each of which adds at most one more. -/
theorem wireBytesLengthAndStartToken : Obligations.WireBytesLengthAndStartToken := by
  intro P opcode payload w legal h
  obtain rfl := encodeFrame_eq_ok h
  have frame := unescapedFrame_length P opcode payload
  have tokens : (unescapedFrame P opcode payload).countP (fun x => P.IsToken x) ≤
      (unescapedFrame P opcode payload).length := List.countP_le_length
  have length : (wireBytes P opcode payload).length =
      7 + payload.length + (unescapedFrame P opcode payload).countP (fun x => P.IsToken x) := by
    rw [wireBytes, List.length_cons, stuff_length, frame]
    omega
  exact ⟨length, by omega, by omega, rfl, startToken_not_mem_stuff legal _⟩

/-- Settles O31: the statement's ENCODE is an error, so it feeds no chunk. -/
theorem oversizeSendFeedsNothing : Obligations.OversizeSendFeedsNothing := by
  intro P ns d opcode payload h
  simp only [programInputs, Stmt.inputs, encodeFrame_of_tooLong P opcode payload h, sendChunk, List.append_nil]

end Sys2Proof.Machine
end

section
/-! SUPPORT. Scope: one decoder fed the wire bytes of a frame (R88 to R93, R96, R99): stuffed bytes are appended one by one
while the frame is incomplete, and the last one completes it. -/

namespace Sys2Proof.Machine

/-! ### Chunks -/

/-- A chunk is its two parts, one after the other (R98). -/
theorem feedChunk_append {P : Params} {D : Decoder} {xs ys : List Byte} {r q : Decoder × List Event}
    (hx : Decoder.feedChunk P D xs = some r) (hy : Decoder.feedChunk P r.1 ys = some q) :
    Decoder.feedChunk P D (xs ++ ys) = some (q.1, r.2 ++ q.2) := by
  induction xs generalizing D r with
  | nil => cases hx; exact hy
  | cons b bs ih =>
    obtain ⟨r₁, r₂, h₁, h₂, rfl⟩ := (feedChunk_cons_eq_some_iff P D b bs r).1 hx
    rw [List.cons_append, List.append_assoc]
    exact (feedChunk_cons_eq_some_iff P D b (bs ++ ys) _).2 ⟨r₁, _, h₁, ih h₂ hy, rfl⟩

/-- A chunk of one byte is that byte's step. -/
theorem feedChunk_singleton {P : Params} {D : Decoder} {b : Byte} {r : Decoder × List Event}
    (h : Decoder.feed P D b = some r) : Decoder.feedChunk P D [b] = some r :=
  (feedChunk_cons_eq_some_iff P D b [] r).2 ⟨r, _, h, rfl, Prod.ext rfl (List.append_nil _)⟩

/-- The wire form of a byte, fed to a collecting decoder, appends the byte: a token comes back from its escape pair. -/
theorem feedChunk_stuffByte {P : Params} (h : P.Legal) (D : Decoder) (hst : D.st = .collecting) (x : Byte) :
    Decoder.feedChunk P D (stuffByte P x) = some (append P D x) := by
  by_cases hx : P.IsToken x
  · have armed : Decoder.feed P D P.escapeToken = some ({ D with st := .escaping }, []) := by
      simp [Decoder.feed, hst, h.tokens_differ.symm]
    have pair : Decoder.feed P { D with st := .escaping } (x ^^^ P.escapeMask) = some (append P D x) := by
      obtain ⟨hs, he⟩ := not_or.1 (not_isToken_masked h hx)
      have back : x ^^^ P.escapeMask ^^^ P.escapeMask = x := by
        rw [BitVec.xor_assoc, BitVec.xor_self, BitVec.xor_zero]
      simp only [Decoder.feed, hs, he, and_false, if_false, back, ← hst]
    rw [stuffByte_of_token hx]
    exact (feedChunk_cons_eq_some_iff P D _ _ _).2 ⟨_, _, armed, feedChunk_singleton pair, rfl⟩
  · obtain ⟨hs, he⟩ := not_or.1 hx
    rw [stuffByte_of_not_token hx]
    exact feedChunk_singleton (by simp only [Decoder.feed, hst, hs, he, if_false])

/-! ### An incomplete frame -/

/-- A collecting decoder with `buf` in its buffer. -/
def decoderHolding (buf : List Byte) : Decoder where
  st := .collecting
  buf := buf
  expLen := if buf.length < Config.headerSize then 0 else lengthField buf

@[simp] theorem decoderHolding_nil : decoderHolding [] = resetCollecting := rfl

/-- What is collected says, once it has a header, that the payload is within the bound and that more is to come. -/
def Incomplete (P : Params) (buf : List Byte) : Prop :=
  Config.headerSize ≤ buf.length →
    (lengthField buf).toNat ≤ P.maxPayload ∧ buf.length < completionLimit (lengthField buf)

theorem lengthField_append_list (buf ys : List Byte) (h : Config.headerSize ≤ buf.length) :
    lengthField (buf ++ ys) = lengthField buf := by
  induction ys using List.reverseRecOn with
  | nil => rw [List.append_nil]
  | append_singleton ys v ih =>
    rw [← List.append_assoc, lengthField_append _ v (by rw [List.length_append]; omega), ih]

/-- What comes before the end of an incomplete frame is incomplete. -/
theorem Incomplete.of_append {P : Params} {buf ys : List Byte} (h : Incomplete P (buf ++ ys)) : Incomplete P buf := by
  intro header
  rw [Incomplete, lengthField_append_list buf ys header, List.length_append] at h
  obtain ⟨bound, short⟩ := h (by omega)
  exact ⟨bound, by omega⟩

/-- The length checks pass an incomplete frame over (R91, R92). -/
theorem lengthChecks_of_incomplete {P : Params} {buf : List Byte} (h : Incomplete P buf) :
    lengthChecks P (decoderHolding buf) = (decoderHolding buf, []) := by
  have short : buf.length < completionLimit (decoderHolding buf).expLen := by
    by_cases header : buf.length < Config.headerSize
    · simp only [decoderHolding, if_pos header, completionLimit]
      omega
    · simp only [decoderHolding, if_neg header]
      exact (h (Nat.le_of_not_lt header)).2
  rcases lengthChecks_cases P (decoderHolding buf) with ⟨complete, -⟩ | ⟨past, -⟩ | ⟨-, -, he⟩
  · exact absurd complete.2 (Nat.ne_of_lt short)
  · exact absurd past (Nat.lt_asymm short)
  · exact he

/-- A byte that leaves the frame incomplete is appended and nothing is emitted (R88, R89). -/
theorem append_of_incomplete {P : Params} {buf : List Byte} {v : Byte} (h : Incomplete P (buf ++ [v])) :
    append P (decoderHolding buf) v = (decoderHolding (buf ++ [v]), []) := by
  have len : (buf ++ [v]).length = buf.length + 1 := List.length_append
  rcases append_cases P (decoderHolding buf) v with ⟨hn, above, -⟩ | ⟨hn, -, he⟩ | ⟨hn, he⟩
  · obtain ⟨bound, -⟩ := h (len ▸ Nat.le_of_eq hn.symm)
    exact absurd above (Nat.not_lt_of_le bound)
  · have header : ¬ (buf ++ [v]).length < Config.headerSize := len ▸ Nat.not_lt_of_le (Nat.le_of_eq hn.symm)
    rw [he]
    simp only [decoderHolding, if_neg header]
  · have appended : { decoderHolding buf with buf := buf ++ [v] } = decoderHolding (buf ++ [v]) := by
      change buf.length + 1 ≠ Config.headerSize at hn
      simp only [decoderHolding, len, Decoder.mk.injEq, true_and]
      by_cases header : buf.length < Config.headerSize
      · rw [if_pos header, if_pos (by omega)]
      · rw [if_neg header, if_neg (by omega), lengthField_append buf v (Nat.le_of_not_lt header)]
    exact (he.trans (congrArg (lengthChecks P) appended)).trans (lengthChecks_of_incomplete h)

/-- The stuffed bytes of an incomplete frame are collected, and nothing is emitted (R104). -/
theorem feedChunk_stuff_of_incomplete {P : Params} (legal : P.Legal) (buf ys : List Byte)
    (h : Incomplete P (buf ++ ys)) :
    Decoder.feedChunk P (decoderHolding buf) (stuff P ys) = some (decoderHolding (buf ++ ys), []) := by
  induction ys generalizing buf with
  | nil => rw [List.append_nil]; rfl
  | cons y ys ih =>
    rw [List.append_cons] at h ⊢
    have first : Decoder.feedChunk P (decoderHolding buf) (stuffByte P y) = some (decoderHolding (buf ++ [y]), []) := by
      rw [feedChunk_stuffByte legal _ rfl, append_of_incomplete h.of_append]
    exact feedChunk_append first (ih (buf ++ [y]) h)

/-! ### The byte that completes a frame -/

/-- What VALIDATE reads of a structurally complete buffer: the covered bytes, the received CRC, the opcode and the payload
(R58, R69). -/
theorem fields_of_complete (o₀ o₁ l₀ l₁ c₀ c₁ : Byte) (p : List Byte) (len : U16) (hlen : len.toNat = p.length) :
    let buf := [o₀, o₁, l₀, l₁] ++ p ++ [c₀, c₁]
    crcCovered buf = [o₀, o₁, l₀, l₁] ++ p ∧ receivedCrc buf = le16 c₀ c₁ ∧ opcodeField buf = le16 o₀ o₁ ∧
      payloadField buf len = p := by
  intro buf
  have length : buf.length = ([o₀, o₁, l₀, l₁] ++ p).length + 2 := List.length_append
  have tail (i : Nat) : byteAt buf (([o₀, o₁, l₀, l₁] ++ p).length + i) = byteAt [c₀, c₁] i := by
    rw [byteAt, List.getD_append_right _ _ _ _ (Nat.le_add_right _ i), Nat.add_sub_cancel_left]
    rfl
  refine ⟨?covered, ?received, rfl, ?payload⟩
  case covered =>
    rw [crcCovered, length]
    exact List.take_left
  case received =>
    rw [receivedCrc, length]
    exact congrArg₂ le16 (tail 0) (tail 1)
  case payload =>
    rw [payloadField, slice, hlen, Nat.add_sub_cancel_left]
    exact List.take_left

/-- The last byte of a frame runs the validator on its fields, and the decoder is fresh after it (R91, R93). -/
theorem append_completes (P : Params) (D : Decoder) (o₀ o₁ l₀ l₁ c₀ c₁ : Byte) (p : List Byte)
    (hbuf : D.buf = [o₀, o₁, l₀, l₁] ++ p ++ [c₀]) (hlen : D.expLen.toNat = p.length) :
    append P D c₁ = (resetIdle,
      [if crc16 P ([o₀, o₁, l₀, l₁] ++ p) = le16 c₀ c₁ then .frame (le16 o₀ o₁) p else .noise .crcMismatch]) := by
  have buf : D.buf ++ [c₁] = [o₀, o₁, l₀, l₁] ++ p ++ [c₀, c₁] := by rw [hbuf, List.append_assoc]; rfl
  have length : D.buf.length = p.length + 5 := by rw [hbuf]; simp
  obtain ⟨covered, received, opcode, payload⟩ := fields_of_complete o₀ o₁ l₀ l₁ c₀ c₁ p D.expLen hlen
  have complete : frameComplete (D.buf ++ [c₁]).length D.expLen := by
    simp only [frameComplete, completionLimit, List.length_append, List.length_singleton, length, hlen,
      Config.headerSize, Config.crcSize]
    omega
  rw [append, if_neg (by simp [headerComplete, length]), lengthChecks, if_pos complete, validate]
  simp only [buf, covered, received, opcode, payload]
  by_cases hcrc : crc16 P ([o₀, o₁, l₀, l₁] ++ p) = le16 c₀ c₁
  · rw [if_pos hcrc, if_neg (not_not_intro hcrc)]
  · rw [if_neg hcrc, if_pos hcrc]
    rfl

/-! ### The wire bytes of a frame -/

/-- An unescaped frame by its bytes (R56). -/
theorem unescapedFrame_eq (P : Params) (opcode : U16) (payload : List Byte) : ∃ o₀ o₁ l₀ l₁ c₀ c₁,
    unescapedFrame P opcode payload = [o₀, o₁, l₀, l₁] ++ payload ++ [c₀] ++ [c₁] ∧ le16 o₀ o₁ = opcode ∧
    le16 l₀ l₁ = BitVec.ofNat 16 payload.length ∧ le16 c₀ c₁ = crc16 P ([o₀, o₁, l₀, l₁] ++ payload) := by
  obtain ⟨-, -, -, bytes⟩ := fieldsAreLittleEndian
  obtain ⟨o₀, o₁, ho, hopcode⟩ := bytes opcode
  obtain ⟨l₀, l₁, hl, hlength⟩ := bytes (BitVec.ofNat 16 payload.length)
  have covered : headerAndPayload opcode payload = [o₀, o₁, l₀, l₁] ++ payload := by rw [headerAndPayload, ho, hl]; rfl
  obtain ⟨c₀, c₁, hc, hcrc⟩ := bytes (crc16 P ([o₀, o₁, l₀, l₁] ++ payload))
  refine ⟨o₀, o₁, l₀, l₁, c₀, c₁, ?_, hopcode, hlength, hcrc⟩
  rw [unescapedFrame, covered, hc, List.append_assoc _ [c₀]]
  rfl

/-- A decoder that a start token has just opened, fed the stuffed frame: the frame comes at the last byte. -/
theorem feedChunk_stuff_unescapedFrame {P : Params} (legal : P.Legal) (opcode : U16) (payload : List Byte)
    (h : payload.length ≤ P.maxPayload) :
    Decoder.feedChunk P resetCollecting (stuff P (unescapedFrame P opcode payload)) =
      some (resetIdle, [.frame opcode payload]) := by
  obtain ⟨o₀, o₁, l₀, l₁, c₀, c₁, frame, rfl, hlength, hcrc⟩ := unescapedFrame_eq P opcode payload
  have field : (lengthField ([o₀, o₁, l₀, l₁] ++ payload ++ [c₀])).toNat = payload.length := by
    have bound : payload.length ≤ 65535 := h.trans legal.bound
    change (le16 l₀ l₁).toNat = _
    rw [hlength, BitVec.toNat_ofNat]
    exact Nat.mod_eq_of_lt (by omega)
  have length : ([o₀, o₁, l₀, l₁] ++ payload ++ [c₀]).length = payload.length + 5 := by simp
  have inside : Incomplete P ([] ++ ([o₀, o₁, l₀, l₁] ++ payload ++ [c₀])) := by
    intro _
    rw [List.nil_append, field, length, completionLimit, field, Config.headerSize, Config.crcSize]
    exact ⟨h, by omega⟩
  have last : append P (decoderHolding ([o₀, o₁, l₀, l₁] ++ payload ++ [c₀])) c₁ =
      (resetIdle, [.frame (le16 o₀ o₁) payload]) := by
    rw [append_completes P _ o₀ o₁ l₀ l₁ c₀ c₁ payload rfl, if_pos hcrc.symm]
    rw [decoderHolding, if_neg (by rw [length, Config.headerSize]; omega)]
    exact field
  rw [frame, stuff_append, stuff_singleton, ← decoderHolding_nil]
  exact feedChunk_append (feedChunk_stuff_of_incomplete legal [] _ inside)
    ((feedChunk_stuffByte legal _ rfl c₁).trans (congrArg some last))

/-- A decoder in IDLE, fed the wire bytes of a frame, emits that frame and is fresh again (R99). -/
theorem feedChunk_wireBytes_of_idle {P : Params} (legal : P.Legal) (D : Decoder) (hst : D.st = .idle) (opcode : U16)
    (payload : List Byte) (h : payload.length ≤ P.maxPayload) :
    Decoder.feedChunk P D (wireBytes P opcode payload) = some (resetIdle, [.frame opcode payload]) := by
  have opened : Decoder.feed P D P.startToken = some (resetCollecting, []) := by simp only [Decoder.feed, hst, if_true]
  exact (feedChunk_cons_eq_some_iff P D _ _ _).2
    ⟨_, _, opened, feedChunk_stuff_unescapedFrame legal opcode payload h, rfl⟩

end Sys2Proof.Machine
end

section
/-! SUPPORT. Scope: a feed on the machine (R53, R95, R96): the row that the instance's state and the byte select does what the
listing says, a chunk is its bytes in order, and a SEND delivers its frame (R66, R99). -/

namespace Sys2Proof.Machine

/-! ### Writing one instance twice -/

theorem Table.set_set (t : List (Nat × Decoder)) (n : Nat) (D E : Decoder) :
    Table.set (Table.set t n D) n E = Table.set t n E := by
  induction t with
  | nil => simp [Table.set]
  | cons c t ih =>
    obtain ⟨k, F⟩ := c
    by_cases below : n < k
    · simp [Table.set, below]
    · by_cases same : n = k
      · simp [Table.set, same]
      · simp [Table.set, below, same, ih]

/-- Two feeds of one instance come to one, with the events of both. -/
theorem feed_then_feed (s : State) (inst : Nat) (D E : Decoder) (es fs : List Event) :
    (((s.setDecoder inst D).emit inst es).setDecoder inst E).emit inst fs =
      (s.setDecoder inst E).emit inst (es ++ fs) := by
  simp only [State.setDecoder, State.emit, Table.set_set, List.map_append, List.append_assoc]

/-- Writing an instance and handing out its events is what completes a feed. -/
theorem feeds_next (s : State) (inst : Nat) (D : Decoder) (es : List Event) :
    Feeds inst D es s (.next ((s.setDecoder inst D).emit inst es)) :=
  ⟨_, rfl, by simp, fun n hn => State.decoder?_setDecoder_ne s inst n D hn, rfl, rfl, rfl⟩

/-! ### One byte -/

/-- The row that the instance's state and the byte select does what the listing of R95 says. -/
theorem exec_selected_row (s : State) (inst : Nat) (D : Decoder) (b : Byte) (r : Decoder × List Event)
    (hD : s.decoder? inst = some D) (h : Decoder.feed s.params D b = some r) :
    ∃ i, decodeFeed s.params D.st.code b inst = .ok i ∧
      exec i s = .next ((s.setDecoder inst r.1).emit inst r.2) := by
  cases hst : D.st with
  | reserved => simp only [Decoder.feed, hst] at h; cases h
  | idle =>
    refine ⟨_, decodeFeed_idle s.params b inst, ?_⟩
    simp only [Decoder.feed, hst] at h
    split_ifs at h ⊢ with hs <;> obtain rfl := Option.some.inj h
    · rw [exec_feedIdleStart]
      exact feedRow_eq inst .idle _ _ s D hD hst rfl
    · rw [exec_feedIdleOther]
      exact feedRow_eq inst .idle _ _ s D hD hst (bne_iff_ne.2 hs)
  | collecting =>
    refine ⟨_, decodeFeed_collecting s.params b inst, ?_⟩
    simp only [Decoder.feed, hst] at h
    split_ifs at h ⊢ with hs he <;> obtain rfl := Option.some.inj h
    · rw [exec_feedCollStart]
      exact feedRow_eq inst .collecting _ _ s D hD hst rfl
    · rw [exec_feedCollEscape]
      exact feedRow_eq inst .collecting _ _ s D hD hst rfl
    · rw [exec_feedCollData]
      exact feedRow_eq inst .collecting _ _ s D hD hst (by simp [hs, he])
  | escaping =>
    refine ⟨_, decodeFeed_escaping s.params b inst, ?_⟩
    simp only [Decoder.feed, hst] at h
    split_ifs at h ⊢ with hs he <;> obtain rfl := Option.some.inj h
    · rw [exec_feedEscStart, feedRow_eq inst .escaping _ _ s D hD hst rfl]
      simp only [hs.1, violation]
    · rw [exec_feedEscEscape, feedRow_eq inst .escaping _ _ s D hD hst rfl]
      simp only [he.1, violation]
    · rw [exec_feedEscData]
      refine feedRow_eq inst .escaping _ _ s D hD hst ?_
      cases hp : s.params.escPolicy <;> simp_all

/-- A fed byte, through its word and the row that it selects, does what the listing of R95 says. -/
theorem perform_ofFeed (s : State) (inst : Nat) (D : Decoder) (b : Byte) (r : Decoder × List Event)
    (hD : s.decoder? inst = some D) (h : Decoder.feed s.params D b = some r) :
    perform (.ofFeed inst .owner b) s = .next ((s.setDecoder inst r.1).emit inst r.2) := by
  obtain ⟨i, hi, he⟩ := exec_selected_row s inst D b r hD h
  rw [perform_ok _ s _ i (ofFeed_word s inst b D hD) ((decode_feedWord _ _ _ _).trans hi), he]

/-! ### Chunks -/

theorem run_succ (k : Nat) (s t : State) (h : step s = .next t) : run (k + 1) s = run k t := by
  simp only [run, h]

/-- A chunk of bytes, run to its end, does what the listing of R96 says. -/
theorem run_chunk (s : State) (inst : Nat) (D : Decoder) (bs : List Byte) (p : Decoder × List Event)
    (rest : List Input) (hbs : bs ≠ []) (hD : s.decoder? inst = some D)
    (h : Decoder.feedChunk s.params D bs = some p) :
    run bs.length { s with inputs := .chunk inst .owner bs :: rest } =
      Answer.withInputs rest (.next ((s.setDecoder inst p.1).emit inst p.2)) := by
  induction bs generalizing s D p with
  | nil => exact absurd rfl hbs
  | cons b bs ih =>
    obtain ⟨r, q, hr, hq, rfl⟩ := (feedChunk_cons_eq_some_iff s.params D b bs p).1 h
    have first := step_chunk_cons s inst .owner b bs rest
    rw [perform_ofFeed s inst D b r hD hr] at first
    rw [List.length_cons, run_succ _ _ _ first]
    by_cases last : bs = []
    · subst last
      cases hq
      rw [List.append_nil]
      rfl
    · have second := ih ((s.setDecoder inst r.1).emit inst r.2) r.1 q last (by simp) hq
      rw [feed_then_feed] at second
      rw [chunkRest_of_ne_nil inst .owner bs rest last]
      exact second

/-- A step takes a chunk with no bytes and changes nothing else (R96). -/
theorem step_chunk_nil (s : State) (inst : Nat) (D : Decoder) (rest : List Input) (hD : s.decoder? inst = some D) :
    step { s with inputs := .chunk inst .owner [] :: rest } = .next { s with inputs := rest } := by
  have target : feedTarget inst .owner { s with inputs := rest } = .ok D := (feedTarget_ok_iff _ _ _ _).2 ⟨rfl, hD⟩
  simp only [step, takeInput, feedNothing, target]

/-- A chunk, put before what else is asked for, completes the feed of R96, an empty one too. -/
theorem run_chunk_feeds (s : State) (inst : Nat) (D : Decoder) (bs : List Byte) (p : Decoder × List Event)
    (hD : s.decoder? inst = some D) (h : Decoder.feedChunk s.params D bs = some p) :
    Feeds inst p.1 p.2 s
      (run (Input.chunk inst .owner bs).steps { s with inputs := .chunk inst .owner bs :: s.inputs }) := by
  cases bs with
  | nil =>
    cases h
    exact ⟨s, run_succ 0 _ _ (step_chunk_nil s inst D s.inputs hD), hD, fun _ _ => rfl, rfl, rfl,
      (List.append_nil _).symm⟩
  | cons b bs =>
    have steps : (Input.chunk inst .owner (b :: bs)).steps = (b :: bs).length := rfl
    rw [steps, run_chunk s inst D (b :: bs) p s.inputs (List.cons_ne_nil b bs) hD h]
    exact feeds_next s inst p.1 p.2

/-! ### SEND -/

/-- Settles O30: the ENCODE hands out the wire bytes (`perform_ofEncode`), their chunk runs as R96 says (`run_chunk`), and
R99 says what it comes to (`feedChunk_wireBytes_of_idle`). -/
theorem sendDeliversTheFrame : Obligations.SendDeliversTheFrame := by
  intro s d D opcode payload ins rest legal bound hD hst hins hin
  have short : ¬ payloadTooLong payload := Nat.not_lt_of_le (bound.trans legal.bound)
  have ok := encodeFrame_of_not_tooLong s.params opcode payload short
  obtain rfl : [.op (.ofEncode opcode payload), .chunk d .owner (wireBytes s.params opcode payload)] = ins := by
    simpa [programInputs, Stmt.inputs, ok, sendChunk] using hins
  have encoded : step s = .next { s.putOut (.encoded (.ok (wireBytes s.params opcode payload))) with
      inputs := .chunk d .owner (wireBytes s.params opcode payload) :: rest } := by
    rw [step_of_op s _ _ hin, perform_ofEncode]
    simp only [ok]
    rfl
  have fed := (run_succ _ _ _ encoded).trans (run_chunk (s.putOut _) d D _ _ rest (List.cons_ne_nil _ _) hD
    (feedChunk_wireBytes_of_idle legal D hst opcode payload bound))
  rw [Nat.add_comm _ 1] at fed
  exact ⟨_, ok, _, fed, State.decoder?_setDecoder_same _ d resetIdle,
    fun n hn => State.decoder?_setDecoder_ne (s.putOut _) d n resetIdle hn, rfl, rfl, List.append_assoc s.outputs _ _⟩

end Sys2Proof.Machine
end

section
/-! SUPPORT. Scope: programs of R66, statement by statement: what each asks of the block and what the run comes to, and the
end state of a whole program. -/

namespace Sys2Proof.Machine

/-! ### Taking one input -/

/-- An operation, put before what else is asked for, is one step. -/
theorem run_op (q : Request) (s t : State) (h : perform q s = .next t) :
    run (Input.op q).steps { s with inputs := .op q :: s.inputs } = .next t :=
  run_succ 0 _ t ((step_of_op _ q s.inputs rfl).trans h)

/-- NEW is taken: its decoder is fresh and no event list is added (R78). -/
theorem take_ofNew (d : Nat) (xs : List Input) (r : ProgramRun) :
    ProgramRun.take (.op (.ofNew d) :: xs) r =
      ProgramRun.take xs { r with state := r.state.setDecoder d Decoder.reset } := by
  rw [ProgramRun.take_cons _ xs r _ (run_op _ _ _ (perform_ofNew r.state d)), Input.feeds, List.append_nil]

/-- ENCODE is taken: its result is handed out and no event list is added (R74). -/
theorem take_ofEncode (opcode : U16) (payload : List Byte) (xs : List Input) (r : ProgramRun) :
    ProgramRun.take (.op (.ofEncode opcode payload) :: xs) r =
      ProgramRun.take xs
        { r with state := r.state.putOut (.encoded (encodeFrame r.state.params opcode payload)) } := by
  rw [ProgramRun.take_cons _ xs r _ (run_op _ _ _ (perform_ofEncode r.state opcode payload)), Input.feeds,
    List.append_nil]

theorem run_succ_fault (k : Nat) (s : State) (f : Fault) (h : step s = .fault f) : run (k + 1) s = .fault f := by
  simp only [run, h]

/-- A chunk for an instance that does not exist faults at its first step, an empty one too. -/
theorem run_chunk_noDecoder (s : State) (d : Nat) (bs : List Byte) (h : s.decoder? d = none) :
    run (Input.chunk d .owner bs).steps { s with inputs := .chunk d .owner bs :: s.inputs } = .fault .noDecoder := by
  cases bs with
  | nil =>
    have target : feedTarget d .owner s = .error .noDecoder := by simp only [feedTarget, h]
    refine run_succ_fault 0 _ _ ?_
    show feedNothing d .owner s = _
    simp only [feedNothing, target]
  | cons b bs => exact run_succ_fault bs.length _ _ (perform_ofFeed_noDecoder _ d b h)

/-- Taking a chunk, to its end, continues the run with one more event list. -/
theorem take_chunk (r : ProgramRun) (d : Nat) (bs : List Byte) (D : Decoder) (p : Decoder × List Event)
    (hD : r.state.decoder? d = some D) (h : Decoder.feedChunk r.state.params D bs = some p) :
    ∃ t, ProgramRun.take [.chunk d .owner bs] r = .ended { r with state := t, feeds := r.feeds ++ [p.2] } ∧
      t.decoder? d = some p.1 ∧ State.OthersSame d r.state t ∧ t.params = r.state.params ∧ t.inputs = r.state.inputs := by
  obtain ⟨t, ht, decoder, others, params, inputs, outputs⟩ := run_chunk_feeds r.state d D bs p hD h
  refine ⟨t, ?_, decoder, others, params, inputs⟩
  rw [ProgramRun.take_cons _ [] r t ht, ProgramRun.take_nil, Input.feeds, eventsBetween_events r.state t d p.2 outputs]

/-! ### Statements -/

theorem Stmt.run_new (r : ProgramRun) (d : Nat) : (Stmt.new d).run r =
    .ended { r with state := r.state.setDecoder d Decoder.reset, named := addName r.named (some d) } :=
  (Stmt.run_eq (.new d) r _ _ rfl).trans (take_ofNew d [] _)

theorem Stmt.run_feed (r : ProgramRun) (d : Nat) (bs : List Byte) :
    (Stmt.feed d bs).run r = ProgramRun.take [.chunk d .owner bs] { r with named := addName r.named (some d) } :=
  Stmt.run_eq (.feed d bs) r _ _ rfl

theorem Stmt.run_encode (r : ProgramRun) (t : Nat) (opcode : U16) (payload : List Byte) :
    (Stmt.encode t opcode payload).run r =
      .ended { r with state := r.state.putOut (.encoded (encodeFrame r.state.params opcode payload)),
                      names := (t, encodeFrame r.state.params opcode payload) :: r.names } :=
  (Stmt.run_eq (.encode t opcode payload) r _ _ rfl).trans (take_ofEncode opcode payload [] _)

/-- SEND is its ENCODE and then the chunk that its result asks for (R66). -/
theorem Stmt.run_send (r : ProgramRun) (d : Nat) (opcode : U16) (payload : List Byte) :
    (Stmt.send d opcode payload).run r =
      ProgramRun.take (sendChunk d (encodeFrame r.state.params opcode payload))
        { r with state := r.state.putOut (.encoded (encodeFrame r.state.params opcode payload)),
                 named := addName r.named (some d) } :=
  (Stmt.run_eq (.send d opcode payload) r _ _ rfl).trans (take_ofEncode opcode payload _ _)

/-- Settles O56: the last statement is run after the program before it (`runProgram_snoc`). -/
theorem programFeedsInOrder : Obligations.ProgramFeedsInOrder := by
  refine ⟨fun r => rfl, fun prog r₀ r h => ⟨fun d => ?new, fun d bs D D' es hD hfeed => ?feed, fun d t w hw => ?named,
    fun d t hnone => ?unbound, fun d bs hnone => ?missing⟩⟩
  case new =>
    refine ⟨_, (runProgram_snoc prog _ r₀ r h).trans (Stmt.run_new r d), ?_, rfl⟩
    exact ⟨State.decoder?_setDecoder_same _ d _, fun n hn => State.decoder?_setDecoder_ne _ d n _ hn, rfl, rfl,
      (List.append_nil _).symm, rfl⟩
  case feed =>
    obtain ⟨t, ht, decoder, others, params, inputs⟩ :=
      take_chunk { r with named := addName r.named (some d) } d bs D (D', es) hD hfeed
    refine ⟨_, (runProgram_snoc prog _ r₀ r h).trans ((Stmt.run_feed r d bs).trans ht), ?_, rfl⟩
    exact ⟨decoder, others, params, inputs, rfl, rfl⟩
  case named =>
    rw [runProgram_snoc prog _ r₀ r h, runProgram_snoc prog _ r₀ r h, Stmt.run_feed]
    exact Stmt.run_eq (.feedName d t) r _ _ (by simp only [Stmt.inputs, hw])
  case unbound =>
    rw [runProgram_snoc prog _ r₀ r h]
    simp only [Stmt.run, Stmt.inputs, hnone]
  case missing =>
    rw [runProgram_snoc prog _ r₀ r h, Stmt.run_feed]
    exact ProgramRun.take_fault _ _ _ _ (run_chunk_noDecoder r.state d bs hnone)

/-! ### The names of a program -/

theorem Names.bytes_cons_ok (ns : Names) (t : Nat) (w : List Byte) : Names.bytes ((t, .ok w) :: ns) t = some w := by
  simp only [Names.bytes, if_true]

theorem Names.bytes_cons_tooLarge (ns : Names) (t : Nat) : Names.bytes ((t, .payloadTooLarge) :: ns) t = none := by
  simp only [Names.bytes, if_true]

theorem Names.bytes_cons_ne (ns : Names) (t t' : Nat) (e : EncodeResult) (h : t' ≠ t) :
    Names.bytes ((t, e) :: ns) t' = Names.bytes ns t' := by
  simp only [Names.bytes, h, if_false]

/-- Settles O57: ENCODE binds its result, and SEND feeds it when it is Ok. -/
theorem programEncodesAndSends : Obligations.ProgramEncodesAndSends := by
  refine fun prog r₀ r h => ⟨fun t opcode payload => ?encode, fun d opcode payload w D D' es ok hD hfeed => ?send,
    fun d opcode payload long => ?oversize⟩
  case encode =>
    refine ⟨_, (runProgram_snoc prog _ r₀ r h).trans (Stmt.run_encode r t opcode payload), rfl, rfl, rfl,
      fun w ok => ?_, fun long => ?_, fun t' ne => Names.bytes_cons_ne _ t t' _ ne⟩
    · simp only [ok]
      exact Names.bytes_cons_ok r.names t w
    · simp only [encodeFrame_of_tooLong _ opcode payload long]
      exact Names.bytes_cons_tooLarge r.names t
  case send =>
    have run := (runProgram_snoc prog _ r₀ r h).trans (Stmt.run_send r d opcode payload)
    rw [ok, sendChunk] at run
    obtain ⟨t, ht, decoder, others, params, inputs⟩ :=
      take_chunk { r with state := r.state.putOut (.encoded (.ok w)), named := addName r.named (some d) } d w D (D', es)
        hD hfeed
    exact ⟨_, run.trans ht, ⟨decoder, others, params, inputs, rfl, rfl⟩, rfl⟩
  case oversize =>
    have run := (runProgram_snoc prog _ r₀ r h).trans (Stmt.run_send r d opcode payload)
    rw [encodeFrame_of_tooLong _ opcode payload long, sendChunk, ProgramRun.take_nil] at run
    exact ⟨_, run, rfl, rfl, rfl⟩

/-! ### The end state -/

/-- A program that ended has named what it had named before and the decoders of its statements, each once. -/
theorem runProgram_named (prog : List Stmt) (r₀ r : ProgramRun) (h : runProgram prog r₀ = .ended r) :
    (∀ d, d ∈ r.named ↔ d ∈ r₀.named ∨ ∃ st ∈ prog, st.decoderName = some d) ∧ (r₀.named.Nodup → r.named.Nodup) := by
  induction prog generalizing r₀ with
  | nil =>
    cases h
    exact ⟨fun d => by simp, id⟩
  | cons st prog ih =>
    rw [runProgram] at h
    cases hst : st.run r₀ with
    | ended r₁ =>
      simp only [hst] at h
      obtain ⟨mem, nodup⟩ := ih r₁ h
      have named := Stmt.run_named st r₀ r₁ hst
      refine ⟨fun d => ?_, fun h₀ => nodup (named ▸ nodup_addName r₀.named st.decoderName h₀)⟩
      simp only [mem, named, mem_addName, or_assoc, List.mem_cons, exists_eq_or_imp]
    | fault f => simp only [hst] at h; cases h
    | refused q => simp only [hst] at h; cases h
    | unbound => simp only [hst] at h; cases h

theorem mem_programEnd_decoders (r : ProgramRun) (d : Nat) (D : Decoder) :
    (d, D) ∈ r.programEnd.decoders ↔ d ∈ r.named ∧ r.state.decoder? d = some D := by
  simp only [ProgramRun.programEnd, List.mem_filterMap, Option.map_eq_some_iff, Prod.mk.injEq]
  constructor
  · rintro ⟨d', hd', D', hD', rfl, rfl⟩
    exact ⟨hd', hD'⟩
  · rintro ⟨hd, hD⟩
    exact ⟨d, hd, D, hD, rfl, rfl⟩

/-- The end state holds the named decoders in the order of their first mention, those that exist. -/
theorem programEnd_names (r : ProgramRun) :
    r.programEnd.decoders.map Prod.fst = r.named.filter (fun d => (r.state.decoder? d).isSome) := by
  rw [ProgramRun.programEnd, List.map_filterMap, ← List.filterMap_eq_filter]
  congr 1
  funext d
  cases hd : r.state.decoder? d <;> simp [Option.guard, hd]

/-- Settles O58: the names are those of `runProgram_named`, from a run that has named none. -/
theorem programEndIsDecodersAndEventLists : Obligations.ProgramEndIsDecodersAndEventLists := by
  intro prog s r h
  obtain ⟨mem, nodup⟩ := runProgram_named prog (ProgramRun.start s) r h
  refine ⟨r.programEnd, by simp only [programEnd, h], rfl, fun d D => ?_, ?_⟩
  · rw [mem_programEnd_decoders, mem d, ProgramRun.start, List.mem_nil_iff, false_or]
  · rw [programEnd_names]
    exact (nodup List.nodup_nil).filter _

end Sys2Proof.Machine
end

section
/-! SUPPORT. Scope: CRC16, the register turn by turn (R68), the CRC of a split sequence (R71) and of a changed one
(R72). -/

namespace Sys2Proof.Machine

/-! ### The register -/

theorem crcBits_eq_iterate (P : Params) (n : Nat) : crcBits P n = (crcBit P)^[n] := by
  induction n with
  | zero => rfl
  | succ n ih =>
    funext c
    rw [crcBits, ih, Function.iterate_succ_apply]

theorem crcRegister_eq_foldl (P : Params) (c : U16) (data : List Byte) :
    crcRegister P c data = data.foldl (crcByte P) c := by
  induction data generalizing c with
  | nil => rfl
  | cons x data ih => rw [crcRegister, ih, List.foldl_cons]

theorem crcRegister_append (P : Params) (c : U16) (xs ys : List Byte) :
    crcRegister P c (xs ++ ys) = crcRegister P (crcRegister P c xs) ys := by
  simp only [crcRegister_eq_foldl, List.foldl_append]

/-- A turn of the inner loop as arithmetic: the register is doubled, and bit 15 is its quotient by 2^15. -/
theorem crcBit_eq_double (P : Params) (c : U16) :
    crcBit P c = if c / 0x8000 = 1 then (c + c) ^^^ P.crcPoly else c + c := by
  have top : c.getLsbD 15 = true ↔ c / 0x8000 = 1 := by
    have quotient : (c / 0x8000).toNat = c.toNat / 32768 := BitVec.toNat_udiv
    rw [← BitVec.msb_eq_getLsbD_last c, BitVec.msb_eq_true_iff_two_mul_ge, ← BitVec.toNat_inj, quotient]
    bv_omega
  have double : c <<< 1 = c + c := by bv_omega
  simp only [crcBit, top, double]

/-- Settles O26: turn by turn and byte by byte, the model's register is the statement's. -/
theorem crcIsTheBitSerialFunction : Obligations.CrcIsTheBitSerialFunction := by
  intro s data P bit byte c
  have hbit : crcBit P = bit := funext (crcBit_eq_double P)
  have hbyte : crcByte P = byte := by
    funext c x
    rw [crcByte, crcBits_eq_iterate, hbit]
    rfl
  have hc : crcRegister P P.crcInit data = c := by rw [crcRegister_eq_foldl, hbyte]
  show Host.Outcome.next (s.putOut (.crc (crc16 P data))) = _
  rw [crc16, hc]
  rfl

/-- Settles O27: the register after the whole is the one the second part leaves, begun where the first part ended. -/
theorem runningCrcIsTheWholeCrc : Obligations.RunningCrcIsTheWholeCrc := by
  intro P xs ys
  rw [crc16, crcRegister_append, crcRegister_eq_foldl, crcRegister_eq_foldl]

/-! ### Injectivity: no step of the computation loses a difference -/

theorem reverse_injective (w : Nat) : Function.Injective (BitVec.reverse : BitVec w → BitVec w) :=
  Function.LeftInverse.injective fun _ => BitVec.reverse_reverse_eq

/-- A reflection that a parameter switches on or off, as REFIN and REFOUT do (R68). -/
theorem reverse_ite_injective (w : Nat) (on : Bool) :
    Function.Injective (fun x : BitVec w => if on then x.reverse else x) := by
  cases on with
  | true => exact reverse_injective w
  | false => exact Function.injective_id

/-- With the polynomial's lowest bit set, the bit shifted out comes back as bit 0. -/
theorem crcBit_getLsbD_zero {P : Params} (odd : P.crcPoly.getLsbD 0 = true) (c : U16) :
    (crcBit P c).getLsbD 0 = c.getLsbD 15 := by
  have shifted : (c <<< 1).getLsbD 0 = false := by simp
  cases top : c.getLsbD 15 with
  | true => rw [crcBit, if_pos top, BitVec.getLsbD_xor, shifted, odd, Bool.false_xor]
  | false => rw [crcBit, if_neg (Bool.eq_false_iff.1 top), shifted]

theorem shiftLeft_one_inj {c d : U16} (top : c.getLsbD 15 = d.getLsbD 15) (h : c <<< 1 = d <<< 1) : c = d := by
  ext i hi
  by_cases last : i = 15
  · subst last
    exact top
  · have inside : i + 1 < 16 := by omega
    have bit : (c <<< 1).getLsbD (i + 1) = (d <<< 1).getLsbD (i + 1) := by rw [h]
    simpa [inside] using bit

theorem crcBit_injective {P : Params} (odd : P.crcPoly.getLsbD 0 = true) : Function.Injective (crcBit P) := by
  intro c d h
  have top : c.getLsbD 15 = d.getLsbD 15 := by
    rw [← crcBit_getLsbD_zero odd, h, crcBit_getLsbD_zero odd]
  apply shiftLeft_one_inj top
  simp only [crcBit, top] at h
  split at h
  · exact (BitVec.xor_left_inj _).mp h
  · exact h

theorem crcBits_injective {P : Params} (odd : P.crcPoly.getLsbD 0 = true) (n : Nat) :
    Function.Injective (crcBits P n) := by
  rw [crcBits_eq_iterate]
  exact (crcBit_injective odd).iterate n

/-- A byte enters the register in its upper half, whole. -/
theorem upperHalf_injective : Function.Injective (fun x : Byte => x.setWidth 16 <<< 8) := by
  intro x y h
  bv_omega

theorem crcByte_injective_byte {P : Params} (odd : P.crcPoly.getLsbD 0 = true) (c : U16) :
    Function.Injective (crcByte P c) := by
  intro x y h
  have entered := (BitVec.xor_right_inj c).mp (crcBits_injective odd 8 h)
  exact reverse_ite_injective 8 P.crcRefin (upperHalf_injective entered)

theorem crcByte_injective_register {P : Params} (odd : P.crcPoly.getLsbD 0 = true) (x : Byte) :
    Function.Injective (fun c => crcByte P c x) := by
  intro c d h
  exact (BitVec.xor_left_inj _).mp (crcBits_injective odd 8 h)

theorem crcRegister_injective {P : Params} (odd : P.crcPoly.getLsbD 0 = true) (data : List Byte) :
    Function.Injective (fun c => crcRegister P c data) := by
  induction data with
  | nil => exact Function.injective_id
  | cons x data ih => exact ih.comp (crcByte_injective_register odd x)

theorem crcFinish_injective (P : Params) : Function.Injective (crcFinish P) := by
  intro c d h
  exact reverse_ite_injective 16 P.crcRefout ((BitVec.xor_left_inj _).mp h)

/-- Settles O28: the registers differ after the changed byte, and what follows is injective in the register. -/
theorem changedByteChangesTheCrc : Obligations.ChangedByteChangesTheCrc := by
  intro P xs ys x y odd ne h
  have whole := crcFinish_injective P h
  rw [crcRegister_append, crcRegister_append] at whole
  exact ne (crcByte_injective_byte odd _ (crcRegister_injective odd ys whole))

end Sys2Proof.Machine
end

section
/-! SUPPORT. Scope: STUFF and ENCODE as the rules list them, byte by byte (R73 to R75), where an escape token stands
among stuffed bytes (R73), and the wire bytes of a payload above the decoder's bound (R76, R90). -/

namespace Sys2Proof.Machine

/-! ### STUFF -/

/-- STUFF is each byte's wire form, in order (R73). -/
theorem stuff_eq_flatMap (P : Params) (xs : List Byte) : stuff P xs = xs.flatMap (stuffByte P) := by
  induction xs with
  | nil => rfl
  | cons x xs ih => rw [stuff, ih, List.flatMap_cons]

/-- Among stuffed bytes an escape token stands only first in an escape pair, so no token comes next (R73 with R11). -/
theorem not_isToken_after_escapeToken_stuff {P : Params} (legal : P.Legal) (xs : List Byte) (k : Nat)
    (h : (stuff P xs)[k]? = some P.escapeToken) : ∃ y, (stuff P xs)[k + 1]? = some y ∧ ¬ P.IsToken y := by
  induction xs generalizing k with
  | nil => cases h
  | cons x xs ih =>
    by_cases hx : P.IsToken x
    · have masked := not_isToken_masked legal hx
      rw [stuff, stuffByte_of_token hx] at h ⊢
      match k with
      | 0 => exact ⟨x ^^^ P.escapeMask, rfl, masked⟩
      | 1 => exact absurd (.inr (Option.some.inj h)) masked
      | k + 2 => exact ih k h
    · rw [stuff, stuffByte_of_not_token hx] at h ⊢
      match k with
      | 0 => exact absurd (.inr (Option.some.inj h)) hx
      | k + 1 => exact ih k h

theorem exec_stuff (bytes : List Byte) (s : State) :
    exec (.stuff bytes) s = .next (s.putOut (.stuffed (stuff s.params bytes))) := rfl

/-- Settles O23: the value is `stuff`'s, whose length and tokens have lemmas of their own. -/
theorem stuffReplacesTokenBytes : Obligations.StuffReplacesTokenBytes := by
  intro s bs P out
  have value : stuff P bs = out := stuff_eq_flatMap P bs
  rw [← value]
  exact ⟨exec_stuff bs s, stuff_length P bs,
    fun legal => ⟨startToken_not_mem_stuff legal bs, not_isToken_after_escapeToken_stuff legal bs⟩⟩

/-! ### ENCODE -/

theorem exec_encode (opcode : U16) (payload : List Byte) (s : State) :
    exec (.encode opcode payload) s = .next (s.putOut (.encoded (encodeFrame s.params opcode payload))) := rfl

/-- A length field says the payload's length when that is within ENCODE's bound (R74, R94). -/
theorem toNat_ofNat_of_le_maxLenField {n : Nat} (h : n ≤ Config.maxLenField) : (BitVec.ofNat 16 n).toNat = n := by
  rw [BitVec.toNat_ofNat]
  exact Nat.mod_eq_of_lt (Nat.lt_succ_of_le h)

/-- Settles O22: above the length field's range both sides are the error; within it the frame's fields are the bytes
that the statement lists. -/
theorem encodeSerializesOneFrame : Obligations.EncodeSerializesOneFrame := by
  intro s opcode payload P u c frame
  rw [exec_encode]
  by_cases long : payloadTooLong payload
  · rw [encodeFrame_of_tooLong P opcode payload long, if_pos long]
    rfl
  · have covered : headerAndPayload opcode payload = u := by
      rw [headerAndPayload, bytesLE16_eq_ofNat, bytesLE16_eq_ofNat,
        toNat_ofNat_of_le_maxLenField (Nat.le_of_not_lt long)]
      rfl
    have whole : unescapedFrame P opcode payload = frame := by
      rw [unescapedFrame, covered, bytesLE16_eq_ofNat]
    rw [encodeFrame_of_not_tooLong P opcode payload long, if_neg long, wireBytes, whole, stuff_eq_flatMap]
    rfl

/-! ### A payload above the decoder's bound -/

/-- A decoder in IDLE stays as it is until a start token comes (R81, R126). -/
theorem feedChunk_of_idle {P : Params} {D : Decoder} {bs : List Byte} (hst : D.st = .idle) (h : P.startToken ∉ bs) :
    Decoder.feedChunk P D bs = some (D, []) := by
  induction bs with
  | nil => rfl
  | cons b bs ih =>
    obtain ⟨hb, hbs⟩ := List.ne_and_not_mem_of_not_mem_cons h
    have discarded : Decoder.feed P D b = some (D, []) := by simp only [Decoder.feed, hst, hb.symm, if_false]
    exact (feedChunk_cons_eq_some_iff P D b bs _).2 ⟨_, _, discarded, ih hbs, rfl⟩

/-- The byte that completes a header whose length field is above the bound gives the frame up (R90). -/
theorem append_of_lengthAboveBound {P : Params} {D : Decoder} {v : Byte} (header : D.buf.length + 1 = Config.headerSize)
    (above : lengthAboveBound P (lengthField (D.buf ++ [v]))) : append P D v = (resetIdle, [.noise .overflow]) := by
  rcases append_cases P D v with ⟨-, -, he⟩ | ⟨-, below, -⟩ | ⟨other, -⟩
  · exact he
  · exact absurd above below
  · exact absurd header other

/-- A decoder that a start token has just opened, fed a stuffed header whose length field is above the bound, reports
Overflow at the header's last byte and discards what follows (R81, R90). -/
theorem feedChunk_stuff_of_lengthAboveBound {P : Params} (legal : P.Legal) (o₀ o₁ l₀ l₁ : Byte) (rest : List Byte)
    (above : lengthAboveBound P (lengthField [o₀, o₁, l₀, l₁])) :
    Decoder.feedChunk P resetCollecting (stuff P ([o₀, o₁, l₀] ++ ([l₁] ++ rest))) =
      some (resetIdle, [.noise .overflow]) := by
  have short : Incomplete P ([] ++ [o₀, o₁, l₀]) := fun header => absurd header (Nat.lt_irrefl 3)
  have last : Decoder.feedChunk P (decoderHolding [o₀, o₁, l₀]) (stuffByte P l₁) =
      some (resetIdle, [.noise .overflow]) := by
    rw [feedChunk_stuffByte legal _ rfl, append_of_lengthAboveBound (D := decoderHolding [o₀, o₁, l₀]) rfl above]
  have discarded : Decoder.feedChunk P resetIdle (stuff P rest) = some (resetIdle, []) :=
    feedChunk_of_idle rfl (startToken_not_mem_stuff legal rest)
  rw [stuff_append, stuff_append, stuff_singleton, ← decoderHolding_nil]
  exact feedChunk_append (feedChunk_stuff_of_incomplete legal [] _ short) (feedChunk_append last discarded)

/-- Settles O25: the payload is within ENCODE's bound, and the length field in its header is above the decoder's. -/
theorem encoderBoundIsNotTheDecoders : Obligations.EncoderBoundIsNotTheDecoders := by
  intro P opcode payload D legal above fits hst
  refine ⟨_, encodeFrame_of_not_tooLong P opcode payload (Nat.not_lt_of_le fits), ?_⟩
  obtain ⟨o₀, o₁, l₀, l₁, c₀, c₁, frame, -, hlength, -⟩ := unescapedFrame_eq P opcode payload
  have field : lengthAboveBound P (lengthField [o₀, o₁, l₀, l₁]) := by
    change P.maxPayload < (le16 l₀ l₁).toNat
    rw [hlength, toNat_ofNat_of_le_maxLenField fits]
    exact above
  have opened : Decoder.feed P D P.startToken = some (resetCollecting, []) := by simp only [Decoder.feed, hst, if_true]
  have inside : unescapedFrame P opcode payload = [o₀, o₁, l₀] ++ ([l₁] ++ (payload ++ [c₀] ++ [c₁])) := frame
  rw [wireBytes, inside]
  exact (feedChunk_cons_eq_some_iff P D _ _ _).2
    ⟨_, _, opened, feedChunk_stuff_of_lengthAboveBound legal o₀ o₁ l₀ l₁ _ field, rfl⟩

end Sys2Proof.Machine
end

section
/-! SUPPORT. Scope: one decoder fed any wire bytes of a frame's inside (R104), of a whole frame, at and before its last byte
(R99), and of a frame with one byte changed (R102): `unstuff` says what the bytes stand for, and the decoder collects
just that. -/

namespace Sys2Proof.Machine

/-! ### What wire bytes stand for -/

/-- What one byte of a frame's inside stands for, and the pending prefix it leaves: an escape prefix for nothing yet, a
byte that is no token for itself, and any byte that may follow a prefix for its un-escaped value (R55, R83, R84, R87). -/
inductive InsideByte (P : Params) (b : Byte) : Bool → List Byte → Bool → Prop
  | pre : b = P.escapeToken → b ≠ P.startToken → InsideByte P b false [] true
  | verbatim : ¬ P.IsToken b → InsideByte P b false [b] false
  | escaped : ¬ (P.escPolicy = .tokenFirst ∧ P.IsToken b) → InsideByte P b true [b ^^^ P.escapeMask] false

theorem unstuff_cons_eq_some_iff (P : Params) (q : Bool) (b : Byte) (bs : List Byte) (p : List Byte × Bool) :
    unstuff P q (b :: bs) = some p ↔
      ∃ ws r us, InsideByte P b q ws r ∧ unstuff P r bs = some us ∧ (ws ++ us.1, us.2) = p := by
  constructor
  · intro h
    cases q with
    | false =>
      rw [unstuff] at h
      split_ifs at h with hs he
      · exact ⟨_, _, p, .pre he hs, h, rfl⟩
      · obtain ⟨us, hus, rfl⟩ := Option.map_eq_some_iff.1 h
        exact ⟨_, _, us, .verbatim (not_or.2 ⟨hs, he⟩), hus, rfl⟩
    | true =>
      rw [unstuff] at h
      split_ifs at h with double
      obtain ⟨us, hus, rfl⟩ := Option.map_eq_some_iff.1 h
      exact ⟨_, _, us, .escaped double, hus, rfl⟩
  · rintro ⟨ws, r, us, hb, hus, rfl⟩
    cases hb with
    | pre he hs => rw [unstuff, if_neg hs, if_pos he, hus]; rfl
    | verbatim data => rw [unstuff, if_neg (not_or.1 data).1, if_neg (not_or.1 data).2, hus]; rfl
    | escaped single => rw [unstuff, if_neg single, hus]; rfl

/-- Two runs of wire bytes together: the second takes over the first one's pending prefix. -/
theorem unstuff_append_eq_some_iff (P : Params) (q : Bool) (xs ys : List Byte) (p : List Byte × Bool) :
    unstuff P q (xs ++ ys) = some p ↔
      ∃ us ws, unstuff P q xs = some us ∧ unstuff P us.2 ys = some ws ∧ (us.1 ++ ws.1, ws.2) = p := by
  induction xs generalizing q p with
  | nil =>
    rw [unstuff]
    constructor
    · intro h
      exact ⟨_, p, rfl, h, rfl⟩
    · rintro ⟨_, _, ⟨⟩, h, rfl⟩
      exact h
  | cons x xs ih =>
    simp only [List.cons_append, unstuff_cons_eq_some_iff, ih]
    constructor
    · rintro ⟨ws, r, us, hx, ⟨us', ws', h₁, h₂, rfl⟩, rfl⟩
      exact ⟨_, ws', ⟨ws, r, us', hx, h₁, rfl⟩, h₂, by rw [List.append_assoc]⟩
    · rintro ⟨_, ws', ⟨ws, r, us', hx, h₁, rfl⟩, h₂, rfl⟩
      exact ⟨ws, r, _, hx, ⟨us', ws', h₁, h₂, rfl⟩, by rw [List.append_assoc]⟩

/-- A byte that is no token stands for itself. -/
theorem unstuff_data {P : Params} {b : Byte} {bs : List Byte} {us : List Byte × Bool} (data : ¬ P.IsToken b)
    (h : unstuff P false bs = some us) : unstuff P false (b :: bs) = some (b :: us.1, us.2) :=
  (unstuff_cons_eq_some_iff ..).2 ⟨_, _, us, .verbatim data, h, rfl⟩

/-- An escape pair stands for its second byte, un-escaped. -/
theorem unstuff_pair {P : Params} (legal : P.Legal) {b : Byte} {bs : List Byte} {us : List Byte × Bool}
    (data : ¬ P.IsToken b) (h : unstuff P false bs = some us) :
    unstuff P false (P.escapeToken :: b :: bs) = some ((b ^^^ P.escapeMask) :: us.1, us.2) :=
  (unstuff_cons_eq_some_iff ..).2 ⟨_, _, _, .pre rfl legal.tokens_differ.symm,
    (unstuff_cons_eq_some_iff ..).2 ⟨_, _, us, .escaped fun double => data double.2, h, rfl⟩, rfl⟩

/-- Un-escaping undoes the mask. -/
theorem masked_masked (P : Params) (x : Byte) : x ^^^ P.escapeMask ^^^ P.escapeMask = x := by
  rw [BitVec.xor_assoc, BitVec.xor_self, BitVec.xor_zero]

/-- The wire form of a byte stands for that byte (R73 with R11). -/
theorem unstuff_stuffByte_append {P : Params} (legal : P.Legal) (x : Byte) {bs : List Byte} {us : List Byte × Bool}
    (h : unstuff P false bs = some us) : unstuff P false (stuffByte P x ++ bs) = some (x :: us.1, us.2) := by
  by_cases hx : P.IsToken x
  · have pair := unstuff_pair legal (not_isToken_masked legal hx) h
    rw [masked_masked] at pair
    rw [stuffByte_of_token hx]
    exact pair
  · rw [stuffByte_of_not_token hx]
    exact unstuff_data hx h

/-- Stuffed bytes stand for what was stuffed, with no prefix left pending (R73 with R11). -/
theorem unstuff_stuff {P : Params} (legal : P.Legal) (xs : List Byte) :
    unstuff P false (stuff P xs) = some (xs, false) := by
  induction xs with
  | nil => rfl
  | cons x xs ih => exact unstuff_stuffByte_append legal x ih

/-! ### A decoder inside a frame -/

/-- An active decoder with `buf` in its buffer, in ESCAPING when an escape prefix is pending. -/
def decoderInside (buf : List Byte) (pending : Bool) : Decoder :=
  { decoderHolding buf with st := if pending then .escaping else .collecting }

/-- R22's invariant leaves an active decoder no choice beside its buffer and its state. -/
theorem eq_decoderInside_of_good {P : Params} {D : Decoder} (good : D.Good P)
    (active : D.st = .collecting ∨ D.st = .escaping) : D = decoderInside D.buf (D.st = .escaping) := by
  obtain ⟨short, long⟩ := (Decoder.good_iff_of_active P D active).1 good
  have state : D.st = (decoderInside D.buf (D.st = .escaping)).st := by
    rcases active with hst | hst <;> rw [hst] <;> rfl
  have expLen : D.expLen = (decoderHolding D.buf).expLen := by
    by_cases header : D.buf.length < Config.headerSize
    · rw [short header, decoderHolding, if_pos header]
    · obtain ⟨field, -⟩ := long (Nat.le_of_not_lt header)
      rw [field, decoderHolding, if_neg header]
  obtain ⟨st, buf, len⟩ := D
  exact (Decoder.mk.injEq ..).mpr ⟨state, rfl, expLen⟩

/-- A byte of a frame's inside, fed to a decoder there, arms escaping or is appended as the byte it stands for. -/
theorem feed_insideByte {P : Params} {b : Byte} {q r : Bool} {ws : List Byte} (h : InsideByte P b q ws r)
    (buf : List Byte) :
    (ws = [] ∧ r = true ∧ Decoder.feed P (decoderInside buf q) b = some (decoderInside buf true, [])) ∨
    ∃ v, ws = [v] ∧ r = false ∧ Decoder.feed P (decoderInside buf q) b = some (append P (decoderHolding buf) v) := by
  cases h with
  | pre he hs => exact .inl ⟨rfl, rfl, (if_neg hs).trans (if_pos he)⟩
  | verbatim data =>
    obtain ⟨hs, he⟩ := not_or.1 data
    exact .inr ⟨b, rfl, rfl, (if_neg hs).trans (if_neg he)⟩
  | escaped single =>
    have hs : ¬ (P.escPolicy = .tokenFirst ∧ b = P.startToken) := fun ⟨policy, hb⟩ => single ⟨policy, .inl hb⟩
    have he : ¬ (P.escPolicy = .tokenFirst ∧ b = P.escapeToken) := fun ⟨policy, hb⟩ => single ⟨policy, .inr hb⟩
    exact .inr ⟨_, rfl, rfl, (if_neg hs).trans (if_neg he)⟩

/-- Wire bytes of the inside of a frame that they leave incomplete are collected un-escaped, and nothing is emitted. -/
theorem feedChunk_of_unstuff {P : Params} {q : Bool} {bs buf : List Byte} {us : List Byte × Bool}
    (h : unstuff P q bs = some us) (incomplete : Incomplete P (buf ++ us.1)) :
    Decoder.feedChunk P (decoderInside buf q) bs = some (decoderInside (buf ++ us.1) us.2, []) := by
  induction bs generalizing q buf us with
  | nil =>
    rw [unstuff] at h
    cases h
    rw [List.append_nil]
    rfl
  | cons b bs ih =>
    obtain ⟨ws, r, vs, hb, hvs, rfl⟩ := (unstuff_cons_eq_some_iff P q b bs us).1 h
    rw [← List.append_assoc] at incomplete ⊢
    have first : Decoder.feed P (decoderInside buf q) b = some (decoderInside (buf ++ ws) r, []) := by
      rcases feed_insideByte hb buf with ⟨rfl, rfl, he⟩ | ⟨v, rfl, rfl, he⟩
      · rw [he, List.append_nil]
      · rw [he, append_of_incomplete incomplete.of_append]
        rfl
    exact (feedChunk_cons_eq_some_iff P _ b bs _).2 ⟨_, _, first, ih hvs incomplete, rfl⟩

/-- Settles O16: R22's invariant says which decoder inside a frame it is, and its bytes are collected
(`feedChunk_of_unstuff`). -/
theorem incompleteFrameEmitsNothing : Obligations.IncompleteFrameEmitsNothing := by
  intro P D bs vs pending good active h buf short
  have incomplete : Incomplete P buf := by
    intro header
    obtain ⟨bound, less⟩ := short header
    refine ⟨bound, ?_⟩
    simp only [completionLimit, Config.headerSize, Config.crcSize]
    omega
  have fed := feedChunk_of_unstuff h incomplete
  rw [← eq_decoderInside_of_good good active] at fed
  exact fed

/-! ### The wire bytes of a whole frame -/

/-- A start token opens a frame in any decoder that is in IDLE or reads tokens first, after one MultipleStartTokens when the
decoder was active (R80, R82, R85). -/
theorem feed_startToken {P : Params} {D : Decoder}
    (h : D.st = .idle ∨ P.escPolicy = .tokenFirst ∧ D.st ≠ .reserved) :
    Decoder.feed P D P.startToken =
      some (resetCollecting, if D.st = .idle then [] else [.noise .multipleStartTokens]) := by
  cases hst : D.st with
  | idle => simp [Decoder.feed, hst]
  | collecting => simp [Decoder.feed, hst]
  | escaping =>
    obtain ⟨policy, -⟩ : P.escPolicy = .tokenFirst ∧ D.st ≠ .reserved := by simpa [hst] using h
    simp [Decoder.feed, hst, policy]
  | reserved => simp [hst] at h

/-- The last of the wire bytes that stand for a frame appends the frame's last byte; those before it stand for the rest. -/
theorem unstuff_concat {P : Params} {bs us : List Byte} {v : Byte} (h : unstuff P false bs = some (us ++ [v], false)) :
    ∃ bs' b r, bs = bs' ++ [b] ∧ unstuff P false bs' = some (us, r) ∧
      Decoder.feed P (decoderInside us r) b = some (append P (decoderHolding us) v) := by
  induction bs using List.reverseRecOn with
  | nil => simp [unstuff] at h
  | append_singleton bs' b _ =>
    obtain ⟨⟨xs, q⟩, last, hxs, hlast, he⟩ := (unstuff_append_eq_some_iff P false bs' [b] _).1 h
    obtain ⟨ws, r, rest, hb, hrest, rfl⟩ := (unstuff_cons_eq_some_iff P q b [] last).1 hlast
    rw [unstuff] at hrest
    cases hrest
    rw [List.append_nil, Prod.mk.injEq] at he
    obtain ⟨hus, rfl⟩ := he
    rcases feed_insideByte hb xs with ⟨-, pending, -⟩ | ⟨v', rfl, -, he⟩
    · cases pending
    · obtain ⟨rfl, hv⟩ := List.append_inj' hus rfl
      cases hv
      exact ⟨bs', b, q, rfl, hxs, he⟩

/-- A start token and wire bytes that stand for a frame with a true length field: nothing comes of the frame before the last
byte, and the validator's event at it (R91, R93). -/
theorem feedChunk_frame {P : Params} {D : Decoder} {es : List Event} {bs p : List Byte} {o₀ o₁ l₀ l₁ c₀ c₁ : Byte}
    (opened : Decoder.feed P D P.startToken = some (resetCollecting, es))
    (h : unstuff P false bs = some ([o₀, o₁, l₀, l₁] ++ p ++ [c₀] ++ [c₁], false))
    (field : (le16 l₀ l₁).toNat = p.length) (bound : p.length ≤ P.maxPayload) :
    Decoder.feedChunk P D (P.startToken :: bs) = some (resetIdle, es ++
      [if crc16 P ([o₀, o₁, l₀, l₁] ++ p) = le16 c₀ c₁ then .frame (le16 o₀ o₁) p else .noise .crcMismatch]) ∧
    ∃ D', Decoder.feedChunk P D (P.startToken :: bs).dropLast = some (D', es) := by
  obtain ⟨bs', b, r, rfl, inside, last⟩ := unstuff_concat h
  have length : ([o₀, o₁, l₀, l₁] ++ p ++ [c₀]).length = p.length + 5 := by simp
  have header : lengthField ([o₀, o₁, l₀, l₁] ++ p ++ [c₀]) = le16 l₀ l₁ := rfl
  have incomplete : Incomplete P ([] ++ ([o₀, o₁, l₀, l₁] ++ p ++ [c₀])) := by
    intro _
    rw [List.nil_append, header, length, completionLimit, field, Config.headerSize, Config.crcSize]
    exact ⟨bound, by omega⟩
  have collected := feedChunk_of_unstuff inside incomplete
  have expLen : (decoderHolding ([o₀, o₁, l₀, l₁] ++ p ++ [c₀])).expLen.toNat = p.length := by
    rw [decoderHolding, if_neg (by rw [length, Config.headerSize]; omega)]
    exact field
  rw [append_completes P _ o₀ o₁ l₀ l₁ c₀ c₁ p rfl expLen] at last
  have before : Decoder.feedChunk P D (P.startToken :: bs') = some (decoderInside _ r, es) :=
    (feedChunk_cons_eq_some_iff P D _ bs' _).2 ⟨_, _, opened, collected, by rw [List.append_nil]⟩
  rw [← List.cons_append, List.dropLast_concat]
  exact ⟨feedChunk_append before (feedChunk_singleton last), _, before⟩

/-- A decoder that a start token opens, fed the wire bytes of a frame within its bound (R99). -/
theorem feedChunk_wireBytes {P : Params} {D : Decoder} {es : List Event} (legal : P.Legal) (opcode : U16)
    (payload : List Byte) (bound : payload.length ≤ P.maxPayload)
    (opened : Decoder.feed P D P.startToken = some (resetCollecting, es)) :
    Decoder.feedChunk P D (wireBytes P opcode payload) = some (resetIdle, es ++ [.frame opcode payload]) ∧
    ∃ D', Decoder.feedChunk P D (wireBytes P opcode payload).dropLast = some (D', es) := by
  obtain ⟨o₀, o₁, l₀, l₁, c₀, c₁, frame, rfl, hlength, hcrc⟩ := unescapedFrame_eq P opcode payload
  have field : (le16 l₀ l₁).toNat = payload.length := by
    rw [hlength, toNat_ofNat_of_le_maxLenField (bound.trans legal.bound)]
  have inside := unstuff_stuff legal (unescapedFrame P (le16 o₀ o₁) payload)
  rw [frame] at inside
  have fed := feedChunk_frame opened inside field bound
  rw [if_pos hcrc.symm, ← frame] at fed
  exact fed

/-- Settles O29: the start token opens the frame from each of the three states (`feed_startToken`), and the bytes after it
are the frame's (`feedChunk_wireBytes`). -/
theorem encodedFrameDecodesToItself : Obligations.EncodedFrameDecodesToItself := by
  intro P opcode payload w D legal bound ok states
  obtain rfl := encodeFrame_eq_ok ok
  refine feedChunk_wireBytes legal opcode payload bound (feed_startToken (states.imp_right ?_))
  rintro ⟨policy, hst | hst⟩ <;> exact ⟨policy, by simp [hst]⟩

end Sys2Proof.Machine
end

section
/-! SUPPORT. Scope: a frame with one byte changed (R72, R102): where the change stands in the frame, and that the validator
sees it. -/

namespace Sys2Proof.Machine

/-! ### One byte changed -/

/-- Two byte sequences that differ in exactly one place. -/
inductive OneByteChanged : List Byte → List Byte → Prop
  | head {a b : Byte} (xs : List Byte) : a ≠ b → OneByteChanged (a :: xs) (b :: xs)
  | tail (a : Byte) {xs ys : List Byte} : OneByteChanged xs ys → OneByteChanged (a :: xs) (a :: ys)

theorem OneByteChanged.length_eq {xs ys : List Byte} (h : OneByteChanged xs ys) : ys.length = xs.length := by
  induction h with
  | head => rfl
  | tail a _ ih => rw [List.length_cons, List.length_cons, ih]

theorem OneByteChanged.append_right {xs ys : List Byte} (h : OneByteChanged xs ys) (zs : List Byte) :
    OneByteChanged (xs ++ zs) (ys ++ zs) := by
  induction h with
  | head xs ne => exact .head (xs ++ zs) ne
  | tail a _ ih => exact .tail a ih

theorem OneByteChanged.append_left {xs ys : List Byte} (h : OneByteChanged xs ys) (zs : List Byte) :
    OneByteChanged (zs ++ xs) (zs ++ ys) := by
  induction zs with
  | nil => exact h
  | cons z zs ih => exact .tail z ih

/-- A change of one byte is a change before a cut or behind it, and not both. -/
theorem OneByteChanged.cut {us vs us' vs' : List Byte} (h : OneByteChanged (us ++ vs) (us' ++ vs'))
    (length : us'.length = us.length) : (OneByteChanged us us' ∧ vs = vs') ∨ (us = us' ∧ OneByteChanged vs vs') := by
  induction us generalizing us' with
  | nil =>
    obtain rfl := List.length_eq_zero_iff.1 length
    exact .inr ⟨rfl, h⟩
  | cons u us ih =>
    obtain ⟨u', us', rfl⟩ := List.exists_cons_of_length_eq_add_one length
    have inner : us'.length = us.length := Nat.succ.inj length
    rw [List.cons_append, List.cons_append] at h
    generalize hx : us ++ vs = x at h
    generalize hy : us' ++ vs' = y at h
    cases h with
    | head _ ne =>
      obtain ⟨rfl, hvs⟩ := List.append_inj (hx.trans hy.symm) inner.symm
      exact .inl ⟨.head us ne, hvs⟩
    | tail _ h =>
      rw [← hx, ← hy] at h
      rcases ih h inner with ⟨hus, hvs⟩ | ⟨rfl, hvs⟩
      · exact .inl ⟨.tail u hus, hvs⟩
      · exact .inr ⟨rfl, hvs⟩

/-- A changed byte changes the CRC (R72). -/
theorem OneByteChanged.crc16_ne {P : Params} (odd : P.crcPoly.getLsbD 0 = true) {xs ys : List Byte}
    (h : OneByteChanged xs ys) : crc16 P xs ≠ crc16 P ys := by
  have registers : ∀ c, crcRegister P c xs ≠ crcRegister P c ys := by
    induction h with
    | head xs ne => exact fun c he => ne (crcByte_injective_byte odd c (crcRegister_injective odd xs he))
    | tail a _ ih => exact fun c => ih (crcByte P c a)
  exact fun he => registers P.crcInit (crcFinish_injective P he)

/-- A frame whose received CRC was right fails the check once one byte is changed, of the covered bytes or of the CRC. -/
theorem OneByteChanged.crc_mismatch {P : Params} (odd : P.crcPoly.getLsbD 0 = true) {us us' : List Byte}
    {c₀ c₁ c₀' c₁' : Byte} (h : OneByteChanged (us ++ [c₀] ++ [c₁]) (us' ++ [c₀'] ++ [c₁']))
    (length : us'.length = us.length) (right : le16 c₀ c₁ = crc16 P us) : crc16 P us' ≠ le16 c₀' c₁' := by
  intro he
  rw [List.append_assoc, List.append_assoc] at h
  rcases h.cut length with ⟨covered, same⟩ | ⟨rfl, received⟩
  · cases same
    exact covered.crc16_ne odd (right.symm.trans he.symm)
  · have same := congrArg bytesLE16 (right.trans he)
    rw [bytesLE16_le16, bytesLE16_le16] at same
    exact received.crc16_ne odd (congrArg (crc16 P) same)

/-! ### One wire byte changed -/

/-- Change one byte among stuffed bytes from one that is no token to another: they then stand for what was stuffed with one
byte changed, be it a byte that stands for itself or one after an escape prefix. -/
theorem unstuff_set_stuff {P : Params} (legal : P.Legal) {x y : Byte} (hx : ¬ P.IsToken x) (hy : ¬ P.IsToken y)
    (ne : x ≠ y) (xs : List Byte) (j : Nat) (h : (stuff P xs)[j]? = some x) :
    ∃ ys, OneByteChanged xs ys ∧ unstuff P false ((stuff P xs).set j y) = some (ys, false) := by
  induction xs generalizing j with
  | nil => cases h
  | cons z xs ih =>
    by_cases hz : P.IsToken z
    · have masked := not_isToken_masked legal hz
      rw [stuff, stuffByte_of_token hz] at h ⊢
      match j with
      | 0 => exact absurd (.inr (Option.some.inj h).symm) hx
      | 1 =>
        obtain rfl : z ^^^ P.escapeMask = x := Option.some.inj h
        have differs : z ≠ y ^^^ P.escapeMask := fun he => ne (by rw [he, masked_masked])
        exact ⟨_, .head xs differs, unstuff_pair legal hy (unstuff_stuff legal xs)⟩
      | j + 2 =>
        obtain ⟨ys, changed, hys⟩ := ih j h
        have pair := unstuff_pair legal masked hys
        rw [masked_masked] at pair
        exact ⟨_, changed.tail z, pair⟩
    · rw [stuff, stuffByte_of_not_token hz] at h ⊢
      match j with
      | 0 =>
        obtain rfl : z = x := Option.some.inj h
        exact ⟨_, .head xs ne, unstuff_data hy (unstuff_stuff legal xs)⟩
      | j + 1 =>
        obtain ⟨ys, changed, hys⟩ := ih j h
        exact ⟨_, changed.tail z, unstuff_data hz hys⟩

/-- The same among the stuffed bytes of two parts: the change stays in the part whose wire form it is in. -/
theorem unstuff_set_stuff_append {P : Params} (legal : P.Legal) {x y : Byte} (hx : ¬ P.IsToken x) (hy : ¬ P.IsToken y)
    (ne : x ≠ y) (us vs : List Byte) (j : Nat) (h : (stuff P (us ++ vs))[j]? = some x) :
    (j < (stuff P us).length → ∃ us', OneByteChanged us us' ∧
      unstuff P false ((stuff P (us ++ vs)).set j y) = some (us' ++ vs, false)) ∧
    ((stuff P us).length ≤ j → ∃ vs', OneByteChanged vs vs' ∧
      unstuff P false ((stuff P (us ++ vs)).set j y) = some (us ++ vs', false)) := by
  rw [stuff_append] at h ⊢
  constructor
  · intro first
    rw [List.getElem?_append_left first] at h
    obtain ⟨us', changed, hus⟩ := unstuff_set_stuff legal hx hy ne us j h
    rw [List.set_append_left j y first]
    exact ⟨us', changed, (unstuff_append_eq_some_iff ..).2 ⟨_, _, hus, unstuff_stuff legal vs, rfl⟩⟩
  · intro second
    rw [List.getElem?_append_right second] at h
    obtain ⟨vs', changed, hvs⟩ := unstuff_set_stuff legal hx hy ne vs _ h
    rw [List.set_append_right j y second]
    exact ⟨vs', changed, (unstuff_append_eq_some_iff ..).2 ⟨_, _, unstuff_stuff legal us, hvs, rfl⟩⟩

/-- A sequence as long as a payload and a CRC is a payload of that length and a CRC. -/
theorem exists_payload_and_crc {xs : List Byte} {n : Nat} (h : xs.length = n + 2) :
    ∃ p c₀ c₁, xs = p ++ [c₀] ++ [c₁] ∧ p.length = n := by
  rcases List.eq_nil_or_concat xs with rfl | ⟨ys, c₁, rfl⟩
  · cases h
  · rcases List.eq_nil_or_concat ys with rfl | ⟨p, c₀, rfl⟩
    · cases h
    · exact ⟨p, c₀, c₁, by rw [List.concat_eq_append, List.concat_eq_append], by simpa using h⟩

/-- One byte of a frame's wire form changed outside that of the length field: the bytes stand for a frame with one byte
changed and the same length field. -/
theorem unstuff_set_frame {P : Params} (legal : P.Legal) {x y : Byte} (hx : ¬ P.IsToken x) (hy : ¬ P.IsToken y)
    (ne : x ≠ y) (o₀ o₁ l₀ l₁ c₀ c₁ : Byte) (p : List Byte) (j : Nat)
    (h : (stuff P ([o₀, o₁, l₀, l₁] ++ p ++ [c₀] ++ [c₁]))[j]? = some x)
    (outside : j < (stuff P [o₀, o₁]).length ∨ (stuff P [o₀, o₁, l₀, l₁]).length ≤ j) :
    ∃ o₀' o₁' c₀' c₁' p', p'.length = p.length ∧
      OneByteChanged ([o₀, o₁, l₀, l₁] ++ p ++ [c₀] ++ [c₁]) ([o₀', o₁', l₀, l₁] ++ p' ++ [c₀'] ++ [c₁']) ∧
      unstuff P false ((stuff P ([o₀, o₁, l₀, l₁] ++ p ++ [c₀] ++ [c₁])).set j y) =
        some ([o₀', o₁', l₀, l₁] ++ p' ++ [c₀'] ++ [c₁'], false) := by
  rcases outside with first | last
  · obtain ⟨us', changed, hus⟩ :=
      (unstuff_set_stuff_append legal hx hy ne [o₀, o₁] ([l₀, l₁] ++ p ++ [c₀] ++ [c₁]) j h).1 first
    obtain ⟨o₀', o₁', rfl⟩ := List.length_eq_two.1 changed.length_eq
    exact ⟨o₀', o₁', c₀, c₁, p, rfl, changed.append_right _, hus⟩
  · have split (q : List Byte) (d₀ d₁ : Byte) :
        [o₀, o₁, l₀, l₁] ++ (q ++ [d₀] ++ [d₁]) = [o₀, o₁, l₀, l₁] ++ q ++ [d₀] ++ [d₁] := by
      simp only [List.append_assoc]
    rw [← split] at h ⊢
    obtain ⟨vs', changed, hvs⟩ := (unstuff_set_stuff_append legal hx hy ne _ _ j h).2 last
    obtain ⟨p', c₀', c₁', rfl, length⟩ := exists_payload_and_crc (n := p.length) (by rw [changed.length_eq]; simp)
    rw [split p'] at hvs
    refine ⟨o₀, o₁, c₀', c₁', p', length, ?_, hvs⟩
    rw [← split]
    exact changed.append_left _

/-- Settles O33: the changed wire bytes stand for a frame with one byte changed and the same length field
(`unstuff_set_frame`), whose last byte runs the validator (`feedChunk_frame`), and the CRC does not fit
(`OneByteChanged.crc_mismatch`). -/
theorem changedWireByteGivesOneCrcMismatch : Obligations.ChangedWireByteGivesOneCrcMismatch := by
  intro P opcode payload w D k x y legal odd bound ok hst hk hx ne notx noty outside
  obtain rfl := encodeFrame_eq_ok ok
  obtain ⟨j, rfl⟩ := Nat.exists_eq_add_of_le' hk
  obtain ⟨o₀, o₁, l₀, l₁, c₀, c₁, frame, -, hlength, hcrc⟩ := unescapedFrame_eq P opcode payload
  rw [wireBytes, frame] at hx ⊢
  rw [frame] at outside
  have place : j < (stuff P [o₀, o₁]).length ∨ (stuff P [o₀, o₁, l₀, l₁]).length ≤ j := by
    refine outside.imp (fun h => ?_) (fun h => ?_)
    · change j + 1 < 1 + (stuff P [o₀, o₁]).length at h
      omega
    · change 1 + (stuff P [o₀, o₁, l₀, l₁]).length ≤ j + 1 at h
      omega
  obtain ⟨o₀', o₁', c₀', c₁', p', length, changed, inside⟩ :=
    unstuff_set_frame legal notx noty ne o₀ o₁ l₀ l₁ c₀ c₁ payload j hx place
  have field : (le16 l₀ l₁).toNat = p'.length := by
    rw [hlength, toNat_ofNat_of_le_maxLenField (bound.trans legal.bound), length]
  have mismatch := changed.crc_mismatch odd (by simp [length]) hcrc
  have fed := feedChunk_frame (feed_startToken (.inl hst)) inside field (length ▸ bound)
  rw [if_neg mismatch, if_pos hst] at fed
  exact fed

end Sys2Proof.Machine
end

section
/-! SUPPORT. Scope: APPEND by the length of the buffer (R88 to R93), where Overflow comes from (R103), what an event leaves
behind (R101), and the resynchronization after garbage (R100, R126). -/

namespace Sys2Proof.Machine

/-! ### APPEND by the length of the buffer -/

theorem le16_eq_ofNat (lo hi : Byte) : le16 lo hi = BitVec.ofNat 16 (lo.toNat + 256 * hi.toNat) := by
  rw [← le16_toNat, BitVec.ofNat_toNat, BitVec.setWidth_eq]

/-- Short of the header's last byte and of the frame's, a byte is appended and nothing else happens (R88). -/
theorem append_of_short {P : Params} {D : Decoder} (v : Byte) (header : D.buf.length + 1 ≠ Config.headerSize)
    (short : D.buf.length + 1 < completionLimit D.expLen) : append P D v = ({ D with buf := D.buf ++ [v] }, []) := by
  rw [← List.length_singleton (a := v), ← List.length_append] at short
  rcases append_cases P D v with ⟨hn, -, -⟩ | ⟨hn, -, -⟩ | ⟨-, he⟩
  · exact absurd hn header
  · exact absurd hn header
  · rcases lengthChecks_cases P { D with buf := D.buf ++ [v] } with ⟨complete, -⟩ | ⟨past, -⟩ | ⟨-, -, hl⟩
    · exact absurd complete.2 (Nat.ne_of_lt short)
    · exact absurd past (Nat.lt_asymm short)
    · exact he.trans hl

/-- Beyond the completion limit the frame is given up (R92). -/
theorem append_of_pastCompletion {P : Params} {D : Decoder} (v : Byte) (header : D.buf.length + 1 ≠ Config.headerSize)
    (past : pastCompletion (D.buf.length + 1) D.expLen) : append P D v = (resetIdle, [.noise .overflow]) := by
  rw [← List.length_singleton (a := v), ← List.length_append] at past
  rcases append_cases P D v with ⟨hn, -, -⟩ | ⟨hn, -, -⟩ | ⟨-, he⟩
  · exact absurd hn header
  · exact absurd hn header
  · rcases lengthChecks_cases P { D with buf := D.buf ++ [v] } with ⟨complete, -⟩ | ⟨-, hl⟩ | ⟨-, below, -⟩
    · exact absurd complete.2.symm (Nat.ne_of_lt past)
    · exact he.trans hl
    · exact absurd past below

/-- The byte that completes a header whose length field is within the bound sets the expected length (R89). -/
theorem append_of_lengthWithinBound {P : Params} {D : Decoder} {v : Byte}
    (header : D.buf.length + 1 = Config.headerSize) (within : ¬ lengthAboveBound P (lengthField (D.buf ++ [v]))) :
    append P D v = ({ D with buf := D.buf ++ [v], expLen := lengthField (D.buf ++ [v]) }, []) := by
  rcases append_cases P D v with ⟨-, above, -⟩ | ⟨-, -, he⟩ | ⟨hn, -⟩
  · exact absurd above within
  · exact he
  · exact absurd header hn

/-- Settles O13, by the buffer's length: one lemma on APPEND for each of its cases. -/
theorem appendRunsTheLengthChecks : Obligations.AppendRunsTheLengthChecks := by
  intro P D v
  have limit : completionLimit D.expLen = 6 + D.expLen.toNat := by
    simp only [completionLimit, Config.headerSize, Config.crcSize]
    omega
  refine ⟨fun hn => ?inHeader, fun o₀ o₁ lo hbuf => ?headerEnds, fun hn short => ?inFrame, fun hn past => ?beyond⟩
  case inHeader => exact append_of_short v (by simp only [Config.headerSize]; omega) (by omega)
  case inFrame => exact append_of_short v (by simp only [Config.headerSize]; omega) (by omega)
  case beyond => exact append_of_pastCompletion v (by simp only [Config.headerSize]; omega) (by
    simp only [pastCompletion]; omega)
  case headerEnds =>
    have header : D.buf.length + 1 = Config.headerSize := by rw [hbuf]; rfl
    have field : lengthField (D.buf ++ [v]) = le16 lo v := by rw [hbuf]; rfl
    rw [← le16_eq_ofNat, ← le16_toNat]
    split_ifs with above
    · exact append_of_lengthAboveBound header (field ▸ above)
    · rw [append_of_lengthWithinBound header (field ▸ above), field, hbuf]
      rfl

/-- Settles O14: `append_completes`, with the two-byte fields written as numbers. -/
theorem completingByteValidatesAndResets : Obligations.CompletingByteValidatesAndResets := by
  intro P D o₀ o₁ l₀ l₁ c₀ c₁ p hbuf hlen
  rw [append_completes P D o₀ o₁ l₀ l₁ c₀ c₁ p hbuf hlen, le16_eq_ofNat, le16_eq_ofNat]
  rfl

/-! ### What an event leaves behind -/

/-- The decoder that an event leaves (R101). -/
def decoderAfter (e : Event) : Decoder := if e = .noise .multipleStartTokens then resetCollecting else resetIdle

/-- APPEND goes on in the decoder's state and emits nothing, or ends the frame with one event, which is never
MultipleStartTokens. -/
theorem append_outcome (P : Params) (D : Decoder) (v : Byte) :
    ((append P D v).1.st = D.st ∧ (append P D v).2 = []) ∨
    ∃ e, e ≠ .noise .multipleStartTokens ∧ append P D v = (resetIdle, [e]) := by
  rcases append_cases P D v with ⟨-, -, h⟩ | ⟨-, -, h⟩ | ⟨-, h⟩ <;> rw [h]
  · exact .inr ⟨_, by decide, rfl⟩
  · exact .inl ⟨rfl, rfl⟩
  · rcases lengthChecks_cases P { D with buf := D.buf ++ [v] } with ⟨-, h⟩ | ⟨-, h⟩ | ⟨-, -, h⟩ <;> rw [h]
    · rcases validate_cases P { D with buf := D.buf ++ [v] } with ⟨-, h⟩ | ⟨-, h⟩ <;> rw [h]
      · exact .inr ⟨_, by simp, rfl⟩
      · exact .inr ⟨_, by decide, rfl⟩
    · exact .inr ⟨_, by decide, rfl⟩
    · exact .inl ⟨rfl, rfl⟩

/-- Whatever event a FEED row emits, it leaves the decoder as R101 says. -/
theorem RowEffect.decoder_after_event {P : Params} {D : Decoder} {r : Decoder × List Event} (h : RowEffect P D r)
    {e : Event} (he : e ∈ r.2) : r.1 = decoderAfter e := by
  cases h with
  | opened | discarded | armed => cases he
  | restarted | doubleEscape =>
    obtain rfl := List.mem_singleton.1 he
    rfl
  | appended v =>
    rcases append_outcome P { D with st := .collecting } v with ⟨-, silent⟩ | ⟨f, hf, ended⟩
    · rw [silent] at he
      cases he
    · rw [ended] at he ⊢
      obtain rfl := List.mem_singleton.1 he
      exact (if_neg hf).symm

/-- Settles O34: NEW, the encoder and the internal rows emit no event, and a FEED row leaves its instance as R101 says. -/
theorem decoderAfterAnEvent : Obligations.DecoderAfterAnEvent := by
  intro i s t h
  rcases exec_cases i s t h with ⟨inst, -, rfl⟩ | ⟨o, -, noEvent, rfl, -⟩ | ⟨inst, D, r, -, -, hr, rfl, -⟩
  · exact ⟨[], (List.append_nil _).symm, fun _ _ he => absurd he List.not_mem_nil⟩
  · exact ⟨[o], rfl, fun inst e he => absurd (List.mem_singleton.1 he).symm (noEvent inst e)⟩
  · refine ⟨r.2.map (Output.event inst), rfl, fun inst' e he => ?_⟩
    obtain ⟨e, he, ⟨⟩⟩ := List.mem_map.1 he
    rw [State.emit_decoder?, State.decoder?_setDecoder_same, hr.decoder_after_event he]
    rfl

/-! ### Where Overflow comes from -/

theorem validate_no_overflow (P : Params) (D : Decoder) : .noise .overflow ∉ (validate P D).2 := by
  rcases validate_cases P D with ⟨-, h⟩ | ⟨-, h⟩ <;> rw [h] <;> simp

/-- A decoder that meets R22's invariant is never past its completion limit, so APPEND's Overflow is that of the length
field's bound (R90, R103). -/
theorem append_overflow {P : Params} {D : Decoder} {v : Byte} (good : D.Collected P)
    (h : .noise .overflow ∈ (append P D v).2) :
    D.buf.length + 1 = Config.headerSize ∧ lengthAboveBound P (lengthField (D.buf ++ [v])) := by
  obtain ⟨-, long⟩ := good
  rcases append_cases P D v with ⟨hn, above, -⟩ | ⟨-, -, he⟩ | ⟨hn, he⟩
  · exact ⟨hn, above⟩
  · rw [he] at h
    cases h
  · rw [he] at h
    rcases lengthChecks_cases P { D with buf := D.buf ++ [v] } with ⟨-, hl⟩ | ⟨past, -⟩ | ⟨-, -, hl⟩
    · rw [hl] at h
      exact absurd h (validate_no_overflow P _)
    · simp only [pastCompletion, completionLimit, List.length_append, List.length_singleton, Config.headerSize,
        Config.crcSize] at past long
      by_cases header : 4 ≤ D.buf.length
      · obtain ⟨-, -, below⟩ := long header
        omega
      · omega
    · rw [hl] at h
      cases h

/-- The byte that a fed byte appends when it appends one: un-escaped after a prefix. -/
def appendedByte (P : Params) (D : Decoder) (b : Byte) : Byte := if D.st = .escaping then b ^^^ P.escapeMask else b

/-- A FEED step that emits Overflow runs APPEND, from an active decoder. -/
theorem feed_overflow {P : Params} {D : Decoder} {b : Byte} {r : Decoder × List Event}
    (h : Decoder.feed P D b = some r) (overflow : .noise .overflow ∈ r.2) :
    (D.st = .collecting ∨ D.st = .escaping) ∧ r = append P { D with st := .collecting } (appendedByte P D b) := by
  cases hst : D.st with
  | idle =>
    simp only [Decoder.feed, hst] at h
    split_ifs at h <;> obtain rfl := Option.some.inj h <;> cases overflow
  | collecting =>
    simp only [Decoder.feed, hst] at h
    split_ifs at h <;> obtain rfl := Option.some.inj h
    · simp at overflow
    · cases overflow
    · refine ⟨.inl rfl, ?_⟩
      rw [appendedByte, if_neg (by simp [hst]), ← hst]
  | escaping =>
    simp only [Decoder.feed, hst] at h
    split_ifs at h <;> obtain rfl := Option.some.inj h
    · simp at overflow
    · simp at overflow
    · refine ⟨.inr rfl, ?_⟩
      rw [appendedByte, if_pos hst]
  | reserved => simp only [Decoder.feed, hst] at h; cases h

/-- Settles O36: the step runs APPEND (`feed_overflow`), whose Overflow is that of the bound (`append_overflow`); no length
field is above 65535. -/
theorem overflowComesFromTheBoundAlone : Obligations.OverflowComesFromTheBoundAlone := by
  intro P D D' b es good h
  have source (overflow : .noise .overflow ∈ es) : D.buf.length = 3 ∧
      P.maxPayload < (lengthField (D.buf ++ [appendedByte P D b])).toNat := by
    obtain ⟨active, he⟩ := feed_overflow h overflow
    have collected := (Decoder.good_iff_of_active P D active).1 good
    have emitted : .noise .overflow ∈ (append P { D with st := .collecting } (appendedByte P D b)).2 := he ▸ overflow
    obtain ⟨header, above⟩ := append_overflow (D := { D with st := .collecting }) collected emitted
    exact ⟨Nat.succ.inj header, above⟩
  refine ⟨source, fun bound overflow => ?_⟩
  obtain ⟨-, above⟩ := source overflow
  have range := (lengthField (D.buf ++ [appendedByte P D b])).isLt
  omega

/-! ### Garbage before a frame -/

/-- Settles O20, byte by byte: none of them opens a frame (`feedChunk_of_idle`). -/
theorem idleDiscardsUntilAStartToken : Obligations.IdleDiscardsUntilAStartToken :=
  fun _ _ _ hst h => feedChunk_of_idle hst h

/-- What a byte or a run of bytes with no start token among them comes to: nothing is emitted, or one event that is not
MultipleStartTokens, with the decoder in its reset state. -/
def Quiet (r : Decoder × List Event) : Prop :=
  (r.1.st ≠ .reserved ∧ r.2 = []) ∨ ∃ e, e ≠ .noise .multipleStartTokens ∧ r = (resetIdle, [e])

theorem Quiet.spec {r : Decoder × List Event} (h : Quiet r) :
    r.1.st ≠ .reserved ∧ r.2.length ≤ 1 ∧ .noise .multipleStartTokens ∉ r.2 ∧ (r.2 ≠ [] → r.1 = resetIdle) := by
  rcases h with ⟨live, silent⟩ | ⟨e, he, rfl⟩
  · simp [live, silent]
  · simp [resetIdle, he.symm]

theorem quiet_append (P : Params) {D : Decoder} (hst : D.st ≠ .reserved) (v : Byte) : Quiet (append P D v) := by
  rcases append_outcome P D v with ⟨same, silent⟩ | ended
  · exact .inl ⟨same ▸ hst, silent⟩
  · exact .inr ended

/-- A byte that is no start token, from each of the three states (R81, R83, R84, R86, R87). -/
theorem feed_quiet {P : Params} {D : Decoder} {b : Byte} (hst : D.st ≠ .reserved) (hb : b ≠ P.startToken) :
    ∃ r, Decoder.feed P D b = some r ∧ Quiet r := by
  cases state : D.st with
  | idle =>
    simp only [Decoder.feed, state, if_neg hb]
    exact ⟨_, rfl, .inl ⟨hst, rfl⟩⟩
  | collecting =>
    simp only [Decoder.feed, state, if_neg hb]
    split_ifs
    · exact ⟨_, rfl, .inl ⟨by simp, rfl⟩⟩
    · exact ⟨_, rfl, quiet_append P hst b⟩
  | escaping =>
    simp only [Decoder.feed, state, hb, and_false, if_false]
    split_ifs
    · exact ⟨_, rfl, .inr ⟨_, by decide, rfl⟩⟩
    · exact ⟨_, rfl, quiet_append P (by simp) _⟩
  | reserved => exact absurd state hst

/-- Garbage with no start token: after its one event, if there is one, the decoder is in IDLE and discards the rest. -/
theorem feedChunk_quiet {P : Params} {D : Decoder} {bs : List Byte} (hst : D.st ≠ .reserved) (h : P.startToken ∉ bs) :
    ∃ r, Decoder.feedChunk P D bs = some r ∧ Quiet r := by
  induction bs generalizing D with
  | nil => exact ⟨_, rfl, .inl ⟨hst, rfl⟩⟩
  | cons b bs ih =>
    obtain ⟨hb, hbs⟩ := List.ne_and_not_mem_of_not_mem_cons h
    obtain ⟨⟨E, es⟩, first, ⟨live, rfl⟩ | ⟨e, he, ⟨⟩⟩⟩ := feed_quiet hst hb.symm
    · obtain ⟨r, rest, quiet⟩ := ih live hbs
      exact ⟨r, (feedChunk_cons_eq_some_iff P D b bs r).2 ⟨_, r, first, rest, rfl⟩, quiet⟩
    · have discarded : Decoder.feedChunk P resetIdle bs = some (resetIdle, []) := feedChunk_of_idle rfl hbs
      exact ⟨_, (feedChunk_cons_eq_some_iff P D b bs _).2 ⟨_, _, first, discarded, rfl⟩, .inr ⟨e, he, rfl⟩⟩

/-- Settles O32: what the garbage comes to (`feedChunk_quiet`), and then the frame from the state that it left
(`feedChunk_wireBytes`). -/
theorem frameAfterGarbageResynchronizes : Obligations.FrameAfterGarbageResynchronizes := by
  intro P opcode payload w garbage D legal policy bound ok hst clean
  obtain rfl := encodeFrame_eq_ok ok
  obtain ⟨⟨D₁, es⟩, fed, quiet⟩ := feedChunk_quiet hst clean
  obtain ⟨live, atMostOne, noRestart, fresh⟩ := quiet.spec
  obtain ⟨frame, -⟩ := feedChunk_wireBytes legal opcode payload bound (feed_startToken (.inr ⟨policy, live⟩))
  refine ⟨D₁, es, fed, atMostOne, noRestart, fresh, ?_⟩
  rw [List.append_assoc]
  exact feedChunk_append fed frame

end Sys2Proof.Machine
end

section
/-! SUPPORT. Scope: NEW (R78) and the FEED rows one by one (R80 to R87), the whole step on a fed byte (R95) and on a chunk
(R96). -/

namespace Sys2Proof.Machine

/-! ### NEW -/

theorem exec_new (inst : Nat) (s : State) : exec (.new inst) s = .next (s.setDecoder inst Decoder.reset) := rfl

/-- Settles O3: NEW writes the instance and hands out nothing. -/
theorem newCreatesADecoderInTheResetState : Obligations.NewCreatesADecoderInTheResetState := by
  intro s inst
  have written := feeds_next s inst Decoder.reset []
  rw [State.emit_nil, ← exec_new] at written
  exact written

/-! ### The FEED rows -/

section
variable {inst : Nat} {row : St} {fits : Params → Bool} {act : Params → Decoder → Decoder × List Event} {s t : State}
  {D E : Decoder} {es : List Event}

/-- The row that the instance's state and the byte select completes the feed with what it does to the decoder. -/
theorem feedRow_feeds (hD : s.decoder? inst = some D) (hst : D.st = row) (hf : fits s.params = true)
    (effect : act s.params D = (E, es)) : Feeds inst E es s (feedRow inst row fits act s) := by
  rw [feedRow_eq inst row fits act s D hD hst hf, effect]
  exact feeds_next s inst E es

/-- A row that answers a next state found the instance in the row's own state. -/
theorem st_of_feedRow_next (h : feedRow inst row fits act s = .next t) (hD : s.decoder? inst = some D) : D.st = row := by
  obtain ⟨E, hE, hst, -, -⟩ := (feedRow_next_iff inst row fits act s t).1 h
  obtain rfl := Option.some.inj (hD.symm.trans hE)
  exact hst

end

/-- Settles O5: the row leaves the instance as it is. -/
theorem otherByteInIdleIsDiscarded : Obligations.OtherByteInIdleIsDiscarded := by
  intro s inst D b hD hst hb
  rw [exec_feedIdleOther]
  exact feedRow_feeds hD hst (bne_iff_ne.2 hb) rfl

/-- An instance in IDLE is taken out of it by FEED.IDLE.START alone: NEW and FEED.IDLE.OTHER leave it there, every other row
is for another state, and the rest are not for this instance. -/
theorem eq_feedIdleStart_of_leaves_idle {i : Instr} {s t : State} {inst : Nat} {D D' : Decoder}
    (hD : s.decoder? inst = some D) (hst : D.st = .idle) (h : exec i s = .next t) (hD' : t.decoder? inst = some D')
    (left : D'.st ≠ .idle) : i = .feedIdleStart inst := by
  have target : i.target = some inst := by
    by_contra other
    obtain ⟨others, -, -⟩ := operationsLeaveOtherInstances i s t h
    obtain rfl : D = D' := Option.some.inj (hD.symm.trans ((others inst other).symm.trans hD'))
    exact left hst
  have unmatched {row fits act} (hx : exec i s = feedRow inst row fits act s) : row = .idle :=
    (st_of_feedRow_next (hx.symm.trans h) hD).symm.trans hst
  cases i with
  | encode | crc16 | stuff => cases target
  | new =>
    cases target
    cases h
    rw [State.decoder?_setDecoder_same] at hD'
    cases hD'
    exact absurd rfl left
  | feedIdleStart => cases target; rfl
  | feedIdleOther _ b =>
    cases target
    rw [exec_feedIdleOther] at h
    obtain ⟨E, hE, hidle, -, rfl⟩ := (feedRow_next_iff ..).1 h
    rw [State.emit_decoder?, State.decoder?_setDecoder_same] at hD'
    cases hD'
    exact absurd hidle left
  | feedCollStart => cases target; cases unmatched (exec_feedCollStart inst s)
  | feedCollEscape => cases target; cases unmatched (exec_feedCollEscape inst s)
  | feedCollData _ b => cases target; cases unmatched (exec_feedCollData inst b s)
  | feedEscStart => cases target; cases unmatched (exec_feedEscStart inst s)
  | feedEscEscape => cases target; cases unmatched (exec_feedEscEscape inst s)
  | feedEscData _ b => cases target; cases unmatched (exec_feedEscData inst b s)

/-- Settles O4: the row's own effect, and `eq_feedIdleStart_of_leaves_idle`. -/
theorem startTokenInIdleOpensAFrame : Obligations.StartTokenInIdleOpensAFrame := by
  refine ⟨fun s inst D hD hst => ?_, fun i s t inst D D' hD hst h hD' left =>
    eq_feedIdleStart_of_leaves_idle hD hst h hD' left⟩
  rw [exec_feedIdleStart]
  exact feedRow_feeds hD hst rfl rfl

/-- Settles O6: the row's effect does not read the buffer. -/
theorem startTokenInCollectingRestarts : Obligations.StartTokenInCollectingRestarts := by
  intro s inst D hD hst
  rw [exec_feedCollStart]
  exact feedRow_feeds hD hst rfl rfl

/-- Settles O7: the row's effect is on the state alone. -/
theorem escapeTokenInCollectingArmsEscaping : Obligations.EscapeTokenInCollectingArmsEscaping := by
  intro s inst D hD hst
  rw [exec_feedCollEscape]
  exact feedRow_feeds hD hst rfl rfl

/-- Settles O8: the row's effect is APPEND's, which emits at most one event. -/
theorem dataByteInCollectingIsAppended : Obligations.DataByteInCollectingIsAppended := by
  intro s inst D b hD hst hs he
  rw [exec_feedCollData]
  exact ⟨feedRow_feeds hD hst (by simp [hs, he]) rfl, append_events_length_le s.params D b⟩

/-- Settles O9, by the policy. -/
theorem startTokenInEscaping : Obligations.StartTokenInEscaping := by
  intro s inst D hD hst
  rw [exec_feedEscStart]
  constructor
  · intro tokenFirst
    exact feedRow_feeds hD hst rfl (by simp only [tokenFirst]; rfl)
  · intro literal
    exact feedRow_feeds hD hst rfl (by simp only [literal]; rfl)

/-- Settles O10, by the policy. -/
theorem escapeTokenInEscaping : Obligations.EscapeTokenInEscaping := by
  intro s inst D hD hst
  rw [exec_feedEscEscape]
  constructor
  · intro tokenFirst
    exact feedRow_feeds hD hst rfl (by simp only [tokenFirst]; rfl)
  · intro literal
    exact feedRow_feeds hD hst rfl (by simp only [literal]; rfl)

/-- Settles O11: the row's effect is APPEND's from COLLECTING, which emits at most one event. -/
theorem byteInEscapingIsUnescapedAndAppended : Obligations.ByteInEscapingIsUnescapedAndAppended := by
  intro s inst D b hD hst data r
  rw [exec_feedEscData]
  refine ⟨feedRow_feeds hD hst ?_ rfl, append_events_length_le s.params { D with st := .collecting } _⟩
  rcases data with policy | ⟨hs, he⟩
  · simp [policy]
  · simp [hs, he]

/-! ### The whole step -/

/-- The listing of R95 has no outcome on state code 3 alone (R18). -/
theorem feed_eq_none_iff (P : Params) (D : Decoder) (b : Byte) : Decoder.feed P D b = none ↔ D.st = .reserved := by
  cases hst : D.st <;> simp [Decoder.feed, hst] <;> split_ifs <;> simp

/-- Settles O17: the row that the byte selects does what the listing says (`perform_ofFeed`); on state code 3 the step faults
(O49). -/
theorem feedStepIsTheListing : Obligations.FeedStepIsTheListing := by
  intro s inst D b rest hin hD
  cases hr : Decoder.feed s.params D b with
  | none =>
    have reserved : D.st = .reserved := (feed_eq_none_iff s.params D b).1 hr
    obtain ⟨-, -, faults⟩ := reservedStateCodeFaults
    exact ⟨reserved, faults s inst D b rest hin hD reserved⟩
  | some r =>
    rw [step_of_op s _ rest hin, perform_ofFeed { s with inputs := rest } inst D b r hD hr]
    exact feeds_next { s with inputs := rest } inst r.1 r.2

/-- Settles O18: `run_chunk` and `step_chunk_nil`, from a state that asks for the chunk next. -/
theorem chunkIsItsBytesInOrder : Obligations.ChunkIsItsBytesInOrder := by
  intro s inst D D' bs es rest hin hD h
  have asked : s = { s with inputs := .chunk inst .owner bs :: rest } := by rw [← hin]
  constructor
  · intro nonempty
    rw [asked, run_chunk s inst D bs (D', es) rest nonempty hD h]
    exact feeds_next { s with inputs := rest } inst D' es
  · rintro rfl
    rw [asked]
    exact step_chunk_nil s inst D rest hD

end Sys2Proof.Machine
end

section
/-! SUPPORT. Scope: the codes of the noise reasons (R106), and a step for which nothing is asked (R120). -/

namespace Sys2Proof.Machine

/-- Settles O37: each code is read off, and that there is no fifth reason is the case split over the reasons. -/
theorem noiseReasonCodes : Obligations.NoiseReasonCodes := by
  refine ⟨rfl, rfl, rfl, rfl, fun r => ?onlyFour⟩
  cases r with
  | multipleStartTokens => exact .inl rfl
  | doubleEscape => exact .inr (.inl rfl)
  | overflow => exact .inr (.inr (.inl rfl))
  | crcMismatch => exact .inr (.inr (.inr rfl))

/-- Settles O53: of what a step can take next, this is the case of nothing (R120). -/
theorem nothingAskedForNothingChanges : Obligations.NothingAskedForNothingChanges := by
  intro s nothingAsked
  simp only [step, takeInput, nothingAsked]

end Sys2Proof.Machine
end

section
/-! SUPPORT. Scope: a START_TOKEN as a step of the machine (R123), feeds that may not go on (R124, R127, R128), and the drop of
a decoder (R124). -/

namespace Sys2Proof.Machine

/-! ### A START_TOKEN -/

/-- Settles O21: the listing opens a fresh frame from each of the three states (`feed_startToken`), and the step does what the
listing says (`perform_ofFeed`). -/
theorem startTokenReopensAnyDecoder : Obligations.StartTokenReopensAnyDecoder := by
  intro s inst D rest hin hD hst policy
  have opens := feed_startToken (P := s.params) (.inr ⟨policy, hst⟩)
  rw [step_of_op s _ rest hin, perform_ofFeed { s with inputs := rest } inst D _ _ hD opens]
  exact feeds_next { s with inputs := rest } inst resetCollecting _

/-! ### Feeds that may not go on -/

section
variable {s : State} {inst : Nat} {origin : Origin} {f : Fault} {rest : List Input}

theorem feedTarget_noDecoder (h : s.decoder? inst = none) : feedTarget inst .owner s = .error .noDecoder := by
  simp only [feedTarget, h]

/-- Whether a feed may go on is settled before its byte is looked at. -/
theorem perform_ofFeed_fault (b : Byte) (h : feedTarget inst origin s = .error f) :
    perform (.ofFeed inst origin b) s = .fault f := by
  simp only [perform, Request.word, Request.ofFeed, Args.ofInst, if_true, h]

theorem step_feed_fault {b : Byte} (hin : s.inputs = .op (.ofFeed inst origin b) :: rest)
    (h : feedTarget inst origin s = .error f) : step s = .fault f := by
  rw [step_of_op s _ rest hin]
  exact perform_ofFeed_fault b h

/-- A chunk faults as a feed of one byte does, an empty one too. -/
theorem step_chunk_fault {bs : List Byte} (hin : s.inputs = .chunk inst origin bs :: rest)
    (h : feedTarget inst origin s = .error f) : step s = .fault f := by
  cases bs with
  | nil =>
    have target : feedTarget inst origin { s with inputs := rest } = .error f := h
    simp only [step, takeInput, hin, feedNothing, target]
  | cons b bs =>
    rw [step, takeInput, hin]
    exact perform_ofFeed_fault b h

end

/-- Settles O54: the mark of the feed alone decides that it has no target, and then a byte and a chunk both fault. -/
theorem overlappingAndReentrantFeedsFault : Obligations.OverlappingAndReentrantFeedsFault := by
  intro s inst b bs rest
  have overlap : feedTarget inst .overlap s = .error .concurrentFeed := rfl
  have reentrant : feedTarget inst .handler s = .error .reentrantFeed := rfl
  exact ⟨fun hin => step_feed_fault hin overlap, fun hin => step_chunk_fault hin overlap,
    fun hin => step_feed_fault hin reentrant, fun hin => step_chunk_fault hin reentrant⟩

/-! ### Dropping a decoder -/

section
variable {s : State} {inst : Nat} {rest : List Input}

theorem step_drop {D : Decoder} (hin : s.inputs = .drop inst :: rest) (hD : s.decoder? inst = some D) :
    step s = .next (State.eraseDecoder { s with inputs := rest } inst) := by
  simp only [step, takeInput, hin, dropDecoder, State.decoder?_withInputs, hD]

theorem step_drop_noDecoder (hin : s.inputs = .drop inst :: rest) (h : s.decoder? inst = none) :
    step s = .fault .noDecoder := by
  simp only [step, takeInput, hin, dropDecoder, State.decoder?_withInputs, h]

end

/-- Settles O55: the drop takes the name out of a table that holds it once, so the instance is gone, and with it the target of
every later feed and drop. -/
theorem dropLosesThePartialFrameSilently : Obligations.DropLosesThePartialFrameSilently := by
  intro s inst D rest good hin hD
  have gone : (State.eraseDecoder { s with inputs := rest } inst).decoder? inst = none :=
    State.decoder?_eraseDecoder_same _ inst good.table_wf
  exact ⟨_, step_drop hin hD, gone, fun n hn => State.decoder?_eraseDecoder_ne _ inst n hn, rfl, rfl, rfl,
    fun b more => step_feed_fault rfl (feedTarget_noDecoder gone),
    fun bs more => step_chunk_fault rfl (feedTarget_noDecoder gone),
    fun more => step_drop_noDecoder rfl gone⟩

end Sys2Proof.Machine
end
